-- ==== Sys2Proof/Word.lean ====
section
/-! DEFINITION. The widths of the unit's data: bytes, words, 64-bit counters, 64-byte blocks, and the eight-word
record that both the hash state and the working variables are (00_scope.md R5, section 6.1). -/

namespace Sys2Proof

/-- 8 bits (00_scope.md section 6.1). -/
abbrev Byte := BitVec 8

/-- 32 bits, unsigned (00_scope.md section 6.1). -/
abbrev Word := BitVec 32

/-- 64 bits, unsigned (00_scope.md section 6.1). -/
abbrev Dword := BitVec 64

/-- A 64-byte block, byte offset 0 first (00_scope.md R5). -/
abbrev Block := Vector Byte 64

/-- Eight 32-bit words in the document's order a, b, ..., h, which is index order 0 to 7 (10_state.md R20, R32).
It is the type of `H[0..7]`, of `IV[0..7]` and of the working variables. -/
structure Words8 where
  a : Word
  b : Word
  c : Word
  d : Word
  e : Word
  f : Word
  g : Word
  h : Word
deriving DecidableEq, Repr, Inhabited

end Sys2Proof
end

