-- ==== Sys2Proof/Syntax.lean ====
section
/-! DEFINITION. The commands of the unit, one constructor per row of spec/opcode_table.json (30_encoding.md R93). -/

namespace Sys2Proof

/-- The three commands. The data of an `UPDATE` beat is not part of the command word: it is on `cmd_data`
(30_encoding.md R92). -/
inductive Instr where
  /-- `INIT` (30_encoding.md R94, 40_context_commands.md R120). -/
  | init
  /-- `UPDATE len` (30_encoding.md R95, 40_context_commands.md R121). -/
  | update (len : BitVec 7)
  /-- `FINALIZE` (30_encoding.md R96, 40_context_commands.md R124). -/
  | finalize
deriving DecidableEq, Repr, Inhabited

/-- Why a command word is illegal: the classes of 30_encoding.md R98. They overlap; a word of two classes is named (b) (log 18,
DESIGN CHOICE, safe). -/
inductive IllegalWord where
  /-- Class (a): `op` is 0000 or 0100 to 1111. -/
  | reservedOpcode
  /-- Class (b): `op` is 0001, 0010 or 0011 and `zero` is not 00000. -/
  | nonzeroZeroField
  /-- Class (c): `op` is 0001 or 0011 and `len` is not 0. -/
  | unexpectedLen
  /-- Class (d): `op` is 0010 and `len` is 65 to 127. -/
  | lenOver64
deriving DecidableEq, Repr, Inhabited

end Sys2Proof
end

