-- ==== Sys2Proof/WellFormed.lean ====
section
/-! DEFINITION. Which commands a command word can stand for. -/

namespace Sys2Proof

/-- The one check of the command set: the byte count of an `UPDATE` beat is 0 to 64, since a beat has 64 lanes
(30_encoding.md R95, R97). -/
def Instr.wellFormed : Instr → Bool
  | .init => true
  | .update len => decide (len.toNat ≤ 64)
  | .finalize => true

end Sys2Proof
end

