-- ==== Sys2Proof/Decode.lean ====
section
/-! DEFINITION. The command word: its fields, the decoder (total on all 65536 words, 30_encoding.md R99) and the encoder
(R94 to R96). -/

namespace Sys2Proof

/-- `op = cmd_word[15:12]` (30_encoding.md R92). -/
def opField (cw : BitVec 16) : BitVec 4 := cw.extractLsb' 12 4

/-- `zero = cmd_word[11:7]` (30_encoding.md R92). -/
def zeroField (cw : BitVec 16) : BitVec 5 := cw.extractLsb' 7 5

/-- `len = cmd_word[6:0]` (30_encoding.md R92, R97). -/
def lenField (cw : BitVec 16) : BitVec 7 := cw.extractLsb' 0 7

/-- The decoder. It accepts what the procedure of 30_encoding.md R99 accepts and names the class of R98 of every word it
refuses, (b) where a word is in two (log 18). It looks at the command word only. -/
def decode (cw : BitVec 16) : Except IllegalWord Instr :=
  if opField cw = 1#4 then
    if zeroField cw ≠ 0#5 then .error .nonzeroZeroField
    else if lenField cw = 0#7 then .ok .init else .error .unexpectedLen
  else if opField cw = 2#4 then
    if zeroField cw ≠ 0#5 then .error .nonzeroZeroField
    else if (lenField cw).toNat ≤ 64 then .ok (.update (lenField cw)) else .error .lenOver64
  else if opField cw = 3#4 then
    if zeroField cw ≠ 0#5 then .error .nonzeroZeroField
    else if lenField cw = 0#7 then .ok .finalize else .error .unexpectedLen
  else .error .reservedOpcode

/-- A command word from its three fields (30_encoding.md R92). -/
def assemble (op : BitVec 4) (zero : BitVec 5) (len : BitVec 7) : BitVec 16 := op ++ zero ++ len

/-- The encoder (30_encoding.md R94, R95, R96). -/
def encode : Instr → BitVec 16
  | .init => assemble 1#4 0#5 0#7
  | .update len => assemble 2#4 0#5 len
  | .finalize => assemble 3#4 0#5 0#7

/-- The command word an opcode-table row of `nbits` bits stands for. A command is one 16-bit word on the `cmd_word`
port (30_encoding.md R92, R103), bit 0 the least significant; bits above `nbits` are 0. -/
def tableWord (nbits w : Nat) : BitVec 16 := BitVec.ofNat 16 (w % 2 ^ nbits)

/-- What the decoder reads from an instruction given with the opcode table's bit numbering. -/
def decodeTableWord (nbits w : Nat) : Option Instr :=
  match decode (tableWord nbits w) with
  | .ok i => some i
  | .error _ => none

end Sys2Proof
end

