-- ==== Sys2Proof/Config.lean ====
section
/-! DEFINITION. What the spec leaves open: the free values (values the spec calls unspecified, after which the unit goes
on) and the two timing parameters. Every constant here is opaque: nothing can be proved about its value. -/

namespace Sys2Proof.Config

/-! Free values. Each is applied to the number of the draw, `State.freeDraws`, so that two draws are unrelated.
They stand for the registers that are unspecified after a reset event (10_state.md R50, 70_reset_and_hazards.md R261)
and after FINALIZE (40_context_commands.md R126). -/

/-- `H[0..7]` after a reset event. -/
opaque freeH : Nat → Words8
/-- `total_length` after a reset event and after FINALIZE. -/
opaque freeTotalLength : Nat → Dword
/-- `buffer[0..63]` after a reset event and after FINALIZE. -/
opaque freeBuffer : Nat → Block
/-- `buffer_used` after a reset event and after FINALIZE. -/
opaque freeBufferUsed : Nat → BitVec 7
/-- `DG[0..31]` after a reset event. -/
opaque freeDG : Nat → Vector Byte 32
/-- `W[0..63]` after a reset event and after FINALIZE. -/
opaque freeW : Nat → Vector Word 64
/-- `a..h` after a reset event and after FINALIZE. -/
opaque freeVars : Nat → Words8
/-- `T1` after a reset event and after FINALIZE. -/
opaque freeT1 : Nat → Word
/-- `T2` after a reset event and after FINALIZE. -/
opaque freeT2 : Nat → Word
/-- `t` after a reset event and after FINALIZE. -/
opaque freeT : Nat → BitVec 7
/-- `bitlen` after a reset event and after FINALIZE. -/
opaque freeBitlen : Nat → Dword
/-- `pos` after a reset event and after FINALIZE. -/
opaque freePos : Nat → BitVec 7

/-! Timing parameters (70_reset_and_hazards.md R276, 92_eei_decisions.md D24). No other definition uses them but
`commandLatency`. -/

/-- `LAT_ROUND` less one, so that the spec's bound `LAT_ROUND >= 1` holds of every value. -/
opaque latRoundLessOne : Nat
/-- `LAT_ROUND`: clock cycles per round, at least 1. -/
def latRound : Nat := latRoundLessOne + 1
/-- `LAT_CMD_OVERHEAD`: clock cycles of a command outside its compressions. -/
opaque latCmdOverhead : Nat

end Sys2Proof.Config
end

