-- ==== Sys2Proof/Machine/State.lean ====
section
/-! DEFINITION. The state of the unit, as plain data: the context, the lifecycle and status registers, the transient
registers, the ports, and two fields of the model's own (10_state.md; 30_encoding.md R90). -/

namespace Sys2Proof.Machine

/-- The lifecycle register (10_state.md R26). The value 11 is "never taken; no rule writes it", so the type does not
have it (log 11). -/
inductive Phase where
  /-- 00: never initialized since reset. -/
  | uninit
  /-- 01: initialized; UPDATE and FINALIZE accepted. -/
  | active
  /-- 10: finalized; digest valid; only INIT accepted. -/
  | finalized
deriving DecidableEq, Repr, Inhabited

/-- The response codes (30_encoding.md R101). The code 11 is never produced (log 11). -/
inductive RspCode where
  /-- 00: the command was legal, was accepted in the current phase and has completed. -/
  | ok
  /-- 01: legal UPDATE or FINALIZE while the phase is not ACTIVE. -/
  | invalidContextState
  /-- 10: illegal command word. -/
  | illegalCommand
deriving DecidableEq, Repr, Inhabited

/-- What the host can do to the unit, sampling apart (60_exceptions.md R246). It is an input of the model, not state of
the unit (log 1, log 2). -/
inductive HostAction where
  /-- The host presents nothing. -/
  | idle
  /-- The reset event, `rst = 1` at a clock edge (70_reset_and_hazards.md R260). -/
  | reset
  /-- The host presents a command: `cmd_word` and the 64 lanes of `cmd_data` (30_encoding.md R91). -/
  | command (word : BitVec 16) (data : BitVec 512)
  /-- The host presents a command and asserts reset while it executes (70_reset_and_hazards.md R261). -/
  | abortedCommand (word : BitVec 16) (data : BitVec 512)
deriving DecidableEq, Repr, Inhabited

/-- The registers of the block compressor and its message schedule: transient state, meaningful only inside one command
(10_state.md section 4). -/
structure Compressor where
  /-- `W[0..63]`, the message schedule (10_state.md R31). -/
  W : Vector Word 64
  /-- `a..h`, the working variables (10_state.md R32). -/
  vars : Words8
  /-- `T1` (10_state.md R33). -/
  T1 : Word
  /-- `T2` (10_state.md R33). -/
  T2 : Word
  /-- `t`, the round index (10_state.md R34). -/
  t : BitVec 7
deriving DecidableEq, Repr, Inhabited

/-- The state of the unit between two commands. INVENTORY.md lists every field with its rule and its reset value. -/
structure State where
  /-- `H[0..7]`, the hash state (10_state.md R20). -/
  H : Words8
  /-- `total_length`, bytes absorbed since INIT (10_state.md R22). -/
  totalLength : Dword
  /-- `buffer[0..63]`, bytes not yet forming a complete block (10_state.md R23). -/
  buffer : Block
  /-- `buffer_used`, count of valid bytes in `buffer` (10_state.md R24). -/
  bufferUsed : BitVec 7
  /-- `phase`, the lifecycle register (10_state.md R26). -/
  phase : Phase
  /-- `fault`, set by every refused command, cleared by reset only (10_state.md R27). -/
  fault : Bool
  /-- `DG[0..31]`, the digest register (10_state.md R28). -/
  DG : Vector Byte 32
  /-- `W[0..63]`, `a..h`, `T1`, `T2` and `t` (10_state.md R31 to R34). -/
  comp : Compressor
  /-- `bitlen`, the latched message length in bits (10_state.md R35). -/
  bitlen : Dword
  /-- `pos`, the consumption pointer of one UPDATE (10_state.md R36). -/
  pos : BitVec 7
  /-- The `cmd_ready` port (30_encoding.md R90, R91). -/
  cmdReady : Bool
  /-- The `cmd_word` port (30_encoding.md R90, R92). -/
  cmdWord : BitVec 16
  /-- The `cmd_data` port (30_encoding.md R90, 20_memory.md R67). -/
  cmdData : BitVec 512
  /-- The response ports: none is `rsp_valid = 0`, some c is `rsp_valid = 1` with `rsp_code = c` (30_encoding.md R101). -/
  rsp : Option RspCode
  /-- THE MODEL'S OWN: what the host does next, first action first (log 2). -/
  hostActions : List HostAction
  /-- THE MODEL'S OWN: how many draws of free values were made (log 5). -/
  freeDraws : Nat
deriving DecidableEq, Repr, Inhabited

/-- Reasons for the model to stop. The unit itself never stops: a refused command is a next state (60_exceptions.md R234). -/
inductive Fault where
  /-- Raised by UPDATE and FINALIZE in phase ACTIVE when `buffer_used` is 64 to 127. Between commands 10_state.md R25
  says it is below 64, and 41_padding_buffer.md R150 gives BUF_PUT no effect otherwise. Safe: the model stops where the
  spec says nothing, and no run reaches it (log 7). -/
  | bufferOccupancy
deriving DecidableEq, Repr, Inhabited

/-- Reasons for the model to give an instruction no meaning. -/
inductive Refusal where
  /-- An arm of `exec` that has no meaning yet. No arm answers it in this model. Safe: it only leaves claims unprovable. -/
  | notModelled (mnemonic : String)
deriving DecidableEq, Repr, Inhabited

/-- The unit right after reset. `phase`, `fault`, `cmd_ready` and `rsp_valid` are what 70_reset_and_hazards.md R260 says
they are. Every other register is unspecified after reset (10_state.md R50); the zeros here are DESIGN CHOICE, unsafe
(log 3, log 9). The host has presented nothing yet (log 2). -/
def State.reset : State where
  H := ⟨0, 0, 0, 0, 0, 0, 0, 0⟩
  totalLength := 0
  buffer := Vector.replicate 64 0
  bufferUsed := 0
  phase := .uninit
  fault := false
  DG := Vector.replicate 32 0
  comp :=
    { W := Vector.replicate 64 0
      vars := ⟨0, 0, 0, 0, 0, 0, 0, 0⟩
      T1 := 0
      T2 := 0
      t := 0 }
  bitlen := 0
  pos := 0
  cmdReady := true
  cmdWord := 0
  cmdData := 0
  rsp := none
  hostActions := []
  freeDraws := 0

end Sys2Proof.Machine
end

