-- ==== Sys2Proof/Machine/Flags.lean ====
section
/-! DEFINITION. The status view: register encodings, `digest_valid` and the status port (10_state.md R26, R29, R37;
30_encoding.md R101, R102). The unit has no arithmetic flags (10_state.md R38). -/

namespace Sys2Proof.Machine

/-- The two bits of `phase` (10_state.md R26). -/
def Phase.bits : Phase → BitVec 2
  | .uninit => 0b00#2
  | .active => 0b01#2
  | .finalized => 0b10#2

/-- The two bits of `rsp_code` (30_encoding.md R101). -/
def RspCode.bits : RspCode → BitVec 2
  | .ok => 0b00#2
  | .invalidContextState => 0b01#2
  | .illegalCommand => 0b10#2

/-- `digest_valid = (phase = FINALIZED)` (10_state.md R29). -/
def State.digestValid (s : State) : Bool := s.phase == .finalized

/-- `status[3:0] = {digest_valid, fault, phase[1:0]}` (10_state.md R37, 30_encoding.md R102). -/
def State.status (s : State) : BitVec 4 :=
  BitVec.ofBool s.digestValid ++ BitVec.ofBool s.fault ++ s.phase.bits

/-- `rsp_valid` (30_encoding.md R90). -/
def State.rspValid (s : State) : Bool := s.rsp.isSome

end Sys2Proof.Machine
end

