-- ==== Sys2Proof/Machine/Ops.lean ====
section
/-! DEFINITION. The shared operations: arithmetic and byte-order helpers, `MemRead` and `MemWrite`, the command handshake,
the response, `raise`, the reset event and the draws of free values. -/

namespace Sys2Proof.Machine

/-! ### Word arithmetic (00_scope.md section 6.2, 43_compression_unit.md R186). Addition is `+` on `Word`: modulo 2^32. -/

/-- `ROTR(x, n)`, 0 < n < 32. -/
def rotr (x : Word) (n : Nat) : Word := x >>> n ||| x <<< (32 - n)

/-- `SHR(x, n)`, 0 < n < 32: logical. -/
def shr (x : Word) (n : Nat) : Word := x >>> n

/-! ### Byte order (00_scope.md section 6.3) -/

/-- `be32(b0, b1, b2, b3)`: `b0` is the most significant byte. -/
def be32 (b0 b1 b2 b3 : Byte) : Word := b0 ++ b1 ++ b2 ++ b3

/-- `bytes_be(v, n)`: the `n` bytes of `v`, most significant first; byte `i` is `v[8(n-i)-1 : 8(n-1-i)]`. -/
def bytesBE {w : Nat} (n : Nat) (v : BitVec w) : List Byte :=
  (List.range n).map fun i => v.extractLsb' (8 * (n - 1 - i)) 8

/-! ### Storage primitives (20_memory.md R62, R63) -/

/-- `MemRead(addr, 1)` from the block source `src`, 0 <= addr < 64. -/
def memRead1 (src : Block) (addr : Nat) : Byte := src[addr]?.getD 0

/-- `MemRead(addr, 4)` from the block source `src`, 0 <= addr and addr + 4 <= 64. -/
def memRead4 (src : Block) (addr : Nat) : Word :=
  be32 (memRead1 src addr) (memRead1 src (addr + 1)) (memRead1 src (addr + 2)) (memRead1 src (addr + 3))

/-- Store bytes at ascending offsets from `addr`. -/
@[irreducible] def writeBytes (addr : Nat) : List Byte → Block → Block
  | [], buf => buf
  | b :: bs, buf => writeBytes (addr + 1) bs (buf.setIfInBounds addr b)

/-- `MemWrite(addr, n, v)`: the bytes `bytes_be(v, n)` into `buffer[addr .. addr+n-1]`, 0 <= addr and addr + n <= 64. -/
def memWrite {w : Nat} (addr n : Nat) (v : BitVec w) (s : State) : State :=
  { s with buffer := writeBytes addr (bytesBE n v) s.buffer }

/-! ### Responding and raising (30_encoding.md R91, 60_exceptions.md R234) -/

/-- The one response of a command: `rsp_valid = 1` with the code, and the unit can take the next command. -/
def respond (code : RspCode) (s : State) : State := { s with rsp := some code, cmdReady := true }

/-- The two fault causes (60_exceptions.md R230). -/
inductive FaultCause where
  /-- The document's caller-protocol misuse, raised by UPDATE and FINALIZE. -/
  | invalidContextState
  /-- Any illegal command word. -/
  | illegalCommand
deriving DecidableEq, Repr, Inhabited

/-- `code(F)` (60_exceptions.md R230). -/
def FaultCause.code : FaultCause → RspCode
  | .invalidContextState => .invalidContextState
  | .illegalCommand => .illegalCommand

/-- `raise F`: set the sticky `fault` flag and respond with the code of `F`; every other register keeps its value
(60_exceptions.md R234). Nothing is saved and there is no handler, so there is no return operation beside it (R236). -/
def raise (cause : FaultCause) (s : State) : State := respond cause.code { s with fault := true }

/-! ### The host side of a step (30_encoding.md R91, 70_reset_and_hazards.md R260, R261) -/

/-- No command completes in this step: everything is held (60_exceptions.md R245), and `rsp_valid`, which a response sets
for one cycle (30_encoding.md R91), is 0 (log 9). -/
def idle (s : State) : State := { s with rsp := none }

/-- The transfer of a command: the inputs are on the ports and `cmd_ready` falls while it executes (30_encoding.md R91). -/
def transfer (word : BitVec 16) (data : BitVec 512) (s : State) : State :=
  { s with cmdWord := word, cmdData := data, cmdReady := false, rsp := none }

/-- Unspecified registers of the compressor: a free value each. -/
def freeCompressor (draw : Nat) : Compressor where
  W := Config.freeW draw
  vars := Config.freeVars draw
  T1 := Config.freeT1 draw
  T2 := Config.freeT2 draw
  t := Config.freeT draw

/-- The reset event: `phase <- UNINIT`, `fault <- 0`, `cmd_ready` 1 and `rsp_valid` 0; every other register is unspecified,
a free value each (70_reset_and_hazards.md R260, R261; 10_state.md R50; log 4). The input pins are the host's. -/
def resetEvent (s : State) : State :=
  { s with
    H := Config.freeH s.freeDraws
    totalLength := Config.freeTotalLength s.freeDraws
    buffer := Config.freeBuffer s.freeDraws
    bufferUsed := Config.freeBufferUsed s.freeDraws
    phase := .uninit
    fault := false
    DG := Config.freeDG s.freeDraws
    comp := freeCompressor s.freeDraws
    bitlen := Config.freeBitlen s.freeDraws
    pos := Config.freePos s.freeDraws
    cmdReady := true
    rsp := none
    freeDraws := s.freeDraws + 1 }

/-- What FINALIZE leaves unspecified until the next INIT: `total_length`, `buffer`, `buffer_used` and the transient registers
(40_context_commands.md R126, 93_implementation_defined.md U2; log 5). -/
def releaseContext (s : State) : State :=
  { s with
    totalLength := Config.freeTotalLength s.freeDraws
    buffer := Config.freeBuffer s.freeDraws
    bufferUsed := Config.freeBufferUsed s.freeDraws
    comp := freeCompressor s.freeDraws
    bitlen := Config.freeBitlen s.freeDraws
    pos := Config.freePos s.freeDraws
    freeDraws := s.freeDraws + 1 }

end Sys2Proof.Machine
end

