-- ==== Sys2Proof/Machine/DigestOutput.lean ====
section
/-! DEFINITION. The sub-block sha256_digest_output (44_digest_output.md). -/

namespace Sys2Proof.Machine

/-- The words of a state in index order. -/
def wordsOf (x : Words8) : List Word := [x.a, x.b, x.c, x.d, x.e, x.f, x.g, x.h]

/-- `DG[4i + j] = bytes_be(H[i], 4)[j]` (44_digest_output.md R220, 20_memory.md R66). -/
@[irreducible] def serialize (x : Words8) : Vector Byte 32 :=
  Vector.ofFn fun k => (bytesBE 4 ((wordsOf x).getD (k.val / 4) 0)).getD (k.val % 4) 0

/-- `DG_SERIALIZE` (44_digest_output.md R220). -/
def dgSerialize (s : State) : State := { s with DG := serialize s.H }

/-- The bytes of `DG` as one 256-bit number, `DG[0]` on top (44_digest_output.md R221). -/
@[irreducible] def digestBits (dg : Vector Byte 32) : BitVec 256 :=
  dg.toList.foldl (fun acc b => acc <<< 8 ||| b.setWidth 256) 0

/-- The `digest` port: `DG` when `digest_valid = 1`, else all zeros (44_digest_output.md R221, R222). -/
def State.digestPort (s : State) : BitVec 256 := if s.digestValid then digestBits s.DG else 0

end Sys2Proof.Machine
end

