-- ==== Sys2Proof/Machine/MessageSchedule.lean ====
section
/-! DEFINITION. The sub-block sha256_message_schedule (42_message_schedule.md). -/

namespace Sys2Proof.Machine

/-- `SSIG0(x)`, the document's σ0 (42_message_schedule.md R172; log 8). -/
def ssig0 (x : Word) : Word := rotr x 7 ^^^ rotr x 18 ^^^ shr x 3

/-- `SSIG1(x)`, the document's σ1 (42_message_schedule.md R173; log 8). -/
def ssig1 (x : Word) : Word := rotr x 17 ^^^ rotr x 19 ^^^ shr x 10

/-- `W[i]`, i = 0 to 63. -/
def wordAt (W : Vector Word 64) (i : Nat) : Word := W[i]?.getD 0

/-- The sum of 42_message_schedule.md R171, from `W[t-2]`, `W[t-7]`, `W[t-15]`, `W[t-16]`. -/
def expandSum (w2 w7 w15 w16 : Word) : Word := ssig1 w2 + w7 + ssig0 w15 + w16

/-- The schedule `W` with `W[i] <- MemRead(4*i, 4)` for i = 0 to 15. -/
@[irreducible] def loadWords (B : Block) (W : Vector Word 64) : Vector Word 64 :=
  (List.range 16).foldl (fun W i => W.setIfInBounds i (memRead4 B (4 * i))) W

/-- `MS_LOAD B` (42_message_schedule.md R170). -/
def msLoad (B : Block) (r : Compressor) : Compressor := { r with W := loadWords B r.W }

/-- `MS_EXPAND t`, t = 16 to 63 (42_message_schedule.md R171). -/
def msExpand (t : Nat) (r : Compressor) : Compressor :=
  let next := expandSum (wordAt r.W (t - 2)) (wordAt r.W (t - 7)) (wordAt r.W (t - 15)) (wordAt r.W (t - 16))
  { r with W := r.W.setIfInBounds t next }

/-- `for t in 16..63: MS_EXPAND t`, as used in 43_compression_unit.md R200. -/
def msExpandAll (r : Compressor) : Compressor := (List.range' 16 48).foldl (fun r t => msExpand t r) r

end Sys2Proof.Machine
end

