-- ==== Sys2Proof/Machine/CompressionUnit.lean ====
section
/-! DEFINITION. The sub-block sha256_compression_unit, the block compressor (43_compression_unit.md). -/

namespace Sys2Proof.Machine

/-- `CH(x, y, z)` (43_compression_unit.md R187; log 8). -/
def ch (x y z : Word) : Word := (x &&& y) ^^^ (~~~x &&& z)

/-- `MAJ(x, y, z)` (43_compression_unit.md R188; log 8). -/
def maj (x y z : Word) : Word := (x &&& y) ^^^ (x &&& z) ^^^ (y &&& z)

/-- `BSIG0(x)`, the document's Σ0 (43_compression_unit.md R189; log 8). -/
def bsig0 (x : Word) : Word := rotr x 2 ^^^ rotr x 13 ^^^ rotr x 22

/-- `BSIG1(x)`, the document's Σ1 (43_compression_unit.md R190; log 8). -/
def bsig1 (x : Word) : Word := rotr x 6 ^^^ rotr x 11 ^^^ rotr x 25

/-- `T1` of a round from the working variables, `K[t]` and `W[t]` (43_compression_unit.md R193). -/
def roundT1 (v : Words8) (k w : Word) : Word := v.h + bsig1 v.e + ch v.e v.f v.g + k + w

/-- `T2` of a round from the working variables (43_compression_unit.md R193). -/
def roundT2 (v : Words8) : Word := bsig0 v.a + maj v.a v.b v.c

/-- The simultaneous write of the eight working variables (43_compression_unit.md R193). -/
def rotateVars (v : Words8) (t1 t2 : Word) : Words8 where
  a := t1 + t2
  b := v.a
  c := v.b
  d := v.c
  e := v.d + t1
  f := v.e
  g := v.f
  h := v.g

/-- The eight additions of CU_ADDBACK (43_compression_unit.md R194). -/
def addBack (x v : Words8) : Words8 where
  a := x.a + v.a
  b := x.b + v.b
  c := x.c + v.c
  d := x.d + v.d
  e := x.e + v.e
  f := x.f + v.f
  g := x.g + v.g
  h := x.h + v.h

/-- `CU_LOAD`: `(a..h) <- H; t <- 0` (43_compression_unit.md R192). -/
def cuLoad (H : Words8) (r : Compressor) : Compressor := { r with vars := H, t := 0 }

/-- `CU_ROUND` at the current index `t`, 0 <= t <= 63 (43_compression_unit.md R193). -/
def cuRound (r : Compressor) : Compressor :=
  { r with
    T1 := roundT1 r.vars (K r.t.toNat) (wordAt r.W r.t.toNat)
    T2 := roundT2 r.vars
    vars := rotateVars r.vars (roundT1 r.vars (K r.t.toNat) (wordAt r.W r.t.toNat)) (roundT2 r.vars)
    t := r.t + 1 }

/-- One CU_ROUND for each word of the given schedule; over `W[0..63]` it is `repeat 64 times: CU_ROUND`. Each round takes its
own word at the index `t`. -/
def cuRounds : List Word → Compressor → Compressor
  | [], r => r
  | _ :: ws, r => cuRounds ws (cuRound r)

/-- The compressor's registers through one compression of `B` from the state `H`, up to CU_ADDBACK: MS_LOAD, the MS_EXPANDs,
CU_LOAD and 64 times CU_ROUND (43_compression_unit.md R200). -/
@[irreducible] def runCompressor (B : Block) (H : Words8) (r : Compressor) : Compressor :=
  cuRounds (msExpandAll (msLoad B r)).W.toList (cuLoad H (msExpandAll (msLoad B r)))

/-- `CU_ADDBACK`: `H[i] <- H[i] +32 (a..h)[i]` (43_compression_unit.md R194). -/
def cuAddback (s : State) : State := { s with H := addBack s.H s.comp.vars }

/-- `H <- COMPRESS(H, B)` in the unit, with every transient register it goes through (43_compression_unit.md R200). -/
def compressBlock (B : Block) (s : State) : State := cuAddback { s with comp := runCompressor B s.H s.comp }

end Sys2Proof.Machine
end

