-- ==== Sys2Proof/Machine/Operands.lean ====
section
/-! DEFINITION. The data operand of UPDATE: the byte lanes of `cmd_data` (20_memory.md R67, 30_encoding.md R95, R100). -/

namespace Sys2Proof.Machine

/-- Byte lane `i`, i = 0 to 63: `d[i] = cmd_data[511 - 8i : 504 - 8i]` (20_memory.md R67). -/
def lane (data : BitVec 512) (i : Nat) : Byte := data.extractLsb' (504 - 8 * i) 8

/-- `d[0 .. n-1]`, the first `n` lanes in message order, n = 0 to 64; the other lanes are ignored (30_encoding.md R100). -/
def beatBytes (n : Nat) (data : BitVec 512) : List Byte := (List.range n).map (lane data)

/-- The block that the first 64 bytes of a byte sequence form (41_padding_buffer.md R152 takes `d[pos .. pos+63]`). Every
caller gives at least 64 bytes; fewer are filled up with zeros. -/
@[irreducible] def blockOf (bytes : List Byte) : Block :=
  ⟨(bytes.take 64 ++ List.replicate (64 - bytes.length) 0).toArray, by simp; omega⟩

/-- The `cmd_data` that carries the given bytes from lane 0 upward, unused lanes 0: the inverse of `beatBytes` for at most
64 bytes (20_memory.md R67, R69). It is what a host does, not the unit. -/
@[irreducible] def packLanes (bytes : List Byte) : BitVec 512 :=
  (List.range 64).foldl (fun acc i => acc <<< 8 ||| (bytes.getD i 0).setWidth 512) 0

end Sys2Proof.Machine
end

