-- ==== Sys2Proof/Machine/PaddingBuffer.lean ====
section
/-! DEFINITION. The sub-block sha256_padding_buffer: its micro-operations (41_padding_buffer.md R150 to R157) and the four
steps of one UPDATE beat (40_context_commands.md R121). -/

namespace Sys2Proof.Machine

/-- `BUF_PUT b` (41_padding_buffer.md R150). -/
def bufPut (b : Byte) (s : State) : State :=
  { memWrite s.bufferUsed.toNat 1 b s with bufferUsed := s.bufferUsed + 1 }

/-- `BUF_PUT` of each byte in order: the loops `for i in ..: BUF_PUT d[i]`. -/
def bufPuts : List Byte → State → State
  | [], s => s
  | b :: bs, s => bufPuts bs (bufPut b s)

/-- `BUF_FLUSH`: `H <- COMPRESS(H, buffer[0..63]); buffer_used <- 0` (41_padding_buffer.md R151). -/
def bufFlush (s : State) : State := { compressBlock s.buffer s with bufferUsed := 0 }

/-- `BLK_DIRECT B`: `H <- COMPRESS(H, B)`; `buffer` and `buffer_used` are not written (41_padding_buffer.md R152). -/
def blkDirect (B : Block) (s : State) : State := compressBlock B s

/-- `LEN_ADD n`: `total_length <- total_length +64 n` (41_padding_buffer.md R153). -/
def lenAdd (n : Nat) (s : State) : State := { s with totalLength := s.totalLength + BitVec.ofNat 64 n }

/-- `PAD_LATCH`: `bitlen <- (total_length << 3) mod 2^64` (41_padding_buffer.md R154). -/
def padLatch (s : State) : State := { s with bitlen := s.totalLength <<< 3 }

/-- `PAD_MARK` (41_padding_buffer.md R155). -/
def padMark (s : State) : State :=
  if (bufPut 0x80 s).bufferUsed = 64 then bufFlush (bufPut 0x80 s) else bufPut 0x80 s

/-- `while buffer_used < limit: BUF_PUT 0x00`, for a limit of at most 64. -/
def zeroFillTo (limit : Nat) (s : State) : State :=
  bufPuts (List.replicate (limit - s.bufferUsed.toNat) 0x00) s

/-- `PAD_ZERO` (41_padding_buffer.md R156). -/
def padZero (s : State) : State :=
  zeroFillTo 56 (if 56 < s.bufferUsed.toNat then bufFlush (zeroFillTo 64 s) else s)

/-- The length field: `MemWrite(56, 8, bitlen); buffer_used <- 64`, the part of PAD_LEN before its BUF_FLUSH
(41_padding_buffer.md R157). -/
def putLength (s : State) : State := { memWrite 56 8 s.bitlen s with bufferUsed := 64 }

/-- `PAD_LEN` (41_padding_buffer.md R157). -/
def padLen (s : State) : State := bufFlush (putLength s)

/-! ### The steps of UPDATE (40_context_commands.md R121), `d` the bytes of the beat and n its length -/

/-- Step 1: complete a partly filled buffer. -/
def completeBuffer (d : List Byte) (s : State) : State :=
  if 0 < s.bufferUsed.toNat ∧ 64 ≤ s.bufferUsed.toNat + d.length then
    { bufFlush (bufPuts (d.take (64 - s.bufferUsed.toNat)) s) with
      pos := BitVec.ofNat 7 (64 - s.bufferUsed.toNat) }
  else s

/-- Step 2: `while n - pos >= 64: BLK_DIRECT d[pos .. pos+63]; pos <- pos + 64`. The count bounds the loop. -/
def directBlocks (d : List Byte) : Nat → State → State
  | 0, s => s
  | count + 1, s =>
    if 64 ≤ d.length - s.pos.toNat then
      directBlocks d count { blkDirect (blockOf (d.drop s.pos.toNat)) s with pos := s.pos + 64 }
    else s

/-- Step 3: keep the tail. -/
def keepTail (d : List Byte) (s : State) : State := bufPuts (d.drop s.pos.toNat) s

/-- The steps 1 to 4 of a beat of 1 to 64 bytes, after `pos <- 0`. Step 2 runs at most `n div 64` times, since each turn
consumes 64 bytes. -/
def absorbBeat (d : List Byte) (s : State) : State :=
  lenAdd d.length (keepTail d (directBlocks d (d.length / 64) (completeBuffer d { s with pos := 0 })))

/-- One beat of at most 64 bytes. The empty one changes no state at all, `pos` included (R121's corner case `n = 0`,
20_memory.md R72); the micro-sequence of 41_padding_buffer.md R159 is then `LEN_ADD 0` alone (log 6). -/
def updateBeat (d : List Byte) (s : State) : State :=
  if d.length = 0 then lenAdd 0 s else absorbBeat d s

end Sys2Proof.Machine
end

