-- ==== Sys2Proof/Machine/ContextCommands.lean ====
section
/-! DEFINITION. The meanings of the three commands (40_context_commands.md R120, R121, R124), with the checks of
60_exceptions.md R235: legality first, then the phase, then execution. -/

namespace Sys2Proof.Machine

/-- Steps 1 to 5 of FINALIZE (40_context_commands.md R124). -/
def finalizeContext (s : State) : State := dgSerialize (padLen (padZero (padMark (padLatch s))))

/-- `INIT` (40_context_commands.md R120). -/
def execInit (s : State) : Host.Outcome State Fault Refusal :=
  .next (respond .ok { s with H := IV, totalLength := 0, bufferUsed := 0, phase := .active })

/-- `UPDATE len` (40_context_commands.md R121). A count of 65 to 127, which no command word decodes to, is the illegal
command of 30_encoding.md R98 (log 16). -/
def execUpdate (len : BitVec 7) (s : State) : Host.Outcome State Fault Refusal :=
  if 64 < len.toNat then .next (raise .illegalCommand s)
  else if s.phase ≠ .active then .next (raise .invalidContextState s)
  else if 64 ≤ s.bufferUsed.toNat then .fault .bufferOccupancy
  else .next (respond .ok (updateBeat (beatBytes len.toNat s.cmdData) s))

/-- `FINALIZE` (40_context_commands.md R124), after which the registers of R126 are free. -/
def execFinalize (s : State) : Host.Outcome State Fault Refusal :=
  if s.phase ≠ .active then .next (raise .invalidContextState s)
  else if 64 ≤ s.bufferUsed.toNat then .fault .bufferOccupancy
  else .next (respond .ok { releaseContext (finalizeContext s) with phase := .finalized })

end Sys2Proof.Machine
end

