-- ==== Sys2Proof/Machine/Step.lean ====
section
/-! DEFINITION. One step of the unit: one action of the host, taken to its end (30_encoding.md R91, 20_memory.md R71). -/

namespace Sys2Proof.Machine

/-- The command on the ports, executed to completion: legality of the word first (60_exceptions.md R235). -/
def runCommand (s : State) : Host.Outcome State Fault Refusal :=
  match decode s.cmdWord with
  | .ok i => exec i s
  | .error _ => .next (raise .illegalCommand s)

/-- One step: the first host action, or idling when there is none (log 1, log 2). A command presented while
`cmd_ready = 0` is not transferred and is held (70_reset_and_hazards.md R265; log 10). -/
def step (s : State) : Host.Outcome State Fault Refusal :=
  match s.hostActions with
  | [] => .next (idle s)
  | .idle :: rest => .next (idle { s with hostActions := rest })
  | .reset :: rest => .next (resetEvent { s with hostActions := rest })
  | .command word data :: rest =>
    if s.cmdReady then runCommand (transfer word data { s with hostActions := rest }) else .next (idle s)
  | .abortedCommand word data :: rest =>
    .next (resetEvent (transfer word data { s with hostActions := rest }))

/-- `s` with the given instruction presented as the host's next command, `cmd_data` all zeros, and the unit ready to take
it (log 2). -/
def State.withFetchWord (s : State) (nbits w : Nat) : State :=
  { s with hostActions := .command (tableWord nbits w) 0 :: s.hostActions, cmdReady := true }

end Sys2Proof.Machine
end

