-- ==== Sys2Proof/Machine/MicroSequence.lean ====
section
/-! DEFINITION. The micro-sequences of an accepted UPDATE beat and of FINALIZE as the tables of 41_padding_buffer.md R159 and
R160 give them. Statements compare them with the pseudocode that `exec` runs. -/

namespace Sys2Proof.Machine

/-- The micro-operations the tables of R159 and R160 name. -/
inductive MicroOp where
  /-- `BUF_PUT b`. -/
  | bufPut (b : Byte)
  /-- `BUF_FLUSH`. -/
  | bufFlush
  /-- `BLK_DIRECT B`. -/
  | blkDirect (B : Block)
  /-- `LEN_ADD n`. -/
  | lenAdd (n : Nat)
  /-- `PAD_LATCH`. -/
  | padLatch
  /-- `MemWrite(56, 8, bitlen)` with PAD_LEN's `buffer_used <- 64`. -/
  | putLength
  /-- `DG_SERIALIZE`. -/
  | dgSerialize
deriving DecidableEq, Repr, Inhabited

/-- The effect of one micro-operation. -/
def MicroOp.run : MicroOp → State → State
  | .bufPut b, s => Machine.bufPut b s
  | .bufFlush, s => Machine.bufFlush s
  | .blkDirect B, s => Machine.blkDirect B s
  | .lenAdd n, s => Machine.lenAdd n s
  | .padLatch, s => Machine.padLatch s
  | .putLength, s => Machine.putLength s
  | .dgSerialize, s => Machine.dgSerialize s

/-- Micro-operations in order. -/
def runMicro (ops : List MicroOp) (s : State) : State := ops.foldl (fun s op => op.run s) s

/-- Whether a micro-operation performs a compression (40_context_commands.md R131). -/
def MicroOp.compresses : MicroOp → Bool
  | .bufFlush => true
  | .blkDirect _ => true
  | _ => false

/-- How many compressions a micro-sequence performs. -/
def compressions (ops : List MicroOp) : Nat := ops.countP MicroOp.compresses

/-- The micro-operation without its data: what 41_padding_buffer.md R161 says depends on lengths alone. -/
def MicroOp.kind : MicroOp → String
  | .bufPut _ => "BUF_PUT"
  | .bufFlush => "BUF_FLUSH"
  | .blkDirect _ => "BLK_DIRECT"
  | .lenAdd _ => "LEN_ADD"
  | .padLatch => "PAD_LATCH"
  | .putLength => "MemWrite"
  | .dgSerialize => "DG_SERIALIZE"

/-- `BUF_PUT` of each byte in order. -/
def putOps (bytes : List Byte) : List MicroOp := bytes.map MicroOp.bufPut

/-- The table of 41_padding_buffer.md R159 (cases A, B, C, D), `u` the occupancy at entry and `d` the bytes of the beat. -/
def updateMicro (u : Nat) (d : List Byte) : List MicroOp :=
  if d.length = 0 then [MicroOp.lenAdd 0]
  else if u + d.length < 64 then putOps d ++ [MicroOp.lenAdd d.length]
  else if 0 < u then
    putOps (d.take (64 - u)) ++ MicroOp.bufFlush :: (putOps (d.drop (64 - u)) ++ [MicroOp.lenAdd d.length])
  else [MicroOp.blkDirect (blockOf d), MicroOp.lenAdd 64]

/-- The end of every row of R160: the length field, the last compression, the Digest. -/
def lengthOps : List MicroOp := [MicroOp.putLength, MicroOp.bufFlush, MicroOp.dgSerialize]

/-- The table of 41_padding_buffer.md R160 (cases F1, F2, F3), `u` the occupancy at entry. -/
def finalizeMicro (u : Nat) : List MicroOp :=
  if u ≤ 55 then
    MicroOp.padLatch :: MicroOp.bufPut 0x80 :: (putOps (List.replicate (55 - u) 0x00) ++ lengthOps)
  else if u ≤ 62 then
    MicroOp.padLatch :: MicroOp.bufPut 0x80 :: (putOps (List.replicate (63 - u) 0x00) ++
      MicroOp.bufFlush :: (putOps (List.replicate 56 0x00) ++ lengthOps))
  else
    MicroOp.padLatch :: MicroOp.bufPut 0x80 :: MicroOp.bufFlush :: (putOps (List.replicate 56 0x00) ++ lengthOps)

/-- The compressions of successive beats of the given lengths, starting from occupancy `u`
(40_context_commands.md R131). -/
def beatCompressions : Nat → List Nat → Nat
  | _, [] => 0
  | u, n :: ns => (u + n) / 64 + beatCompressions ((u + n) % 64) ns

end Sys2Proof.Machine
end

