-- ==== Sys2Proof/Machine/Timing.lean ====
section
/-! DEFINITION. The cost measure of 70_reset_and_hazards.md R276. Nothing in the machine uses it (log 14). -/

namespace Sys2Proof.Machine

/-- The latency of a command with the given count of compressions:
`LAT_CMD_OVERHEAD + 64 * LAT_ROUND * compressions` (70_reset_and_hazards.md R276). -/
def commandLatency (latRound latCmdOverhead compressions : Nat) : Nat :=
  latCmdOverhead + 64 * latRound * compressions

/-- The latency with this unit's own parameters, which the spec leaves open. -/
def unitLatency (compressions : Nat) : Nat :=
  commandLatency Config.latRound Config.latCmdOverhead compressions

end Sys2Proof.Machine
end

