-- ==== Sys2Proof/Machine/PseudoCommands.lean ====
section
/-! DEFINITION. Commands as the host presents them, the pseudo-commands `UPDATE*` and `CALCULATE` (30_encoding.md R105, R106)
and the written syntax (R104). They are what a host does; the unit's step does not use them. -/

namespace Sys2Proof.Machine

/-- The host presents `INIT`, with any value on `cmd_data`. -/
def initAction (data : BitVec 512) : HostAction := .command (encode .init) data

/-- The host presents `UPDATE len` with the given `cmd_data`. -/
def updateAction (len : BitVec 7) (data : BitVec 512) : HostAction := .command (encode (.update len)) data

/-- The host presents `FINALIZE`, with any value on `cmd_data`. -/
def finalizeAction (data : BitVec 512) : HostAction := .command (encode .finalize) data

/-- One beat that carries the given bytes, at most 64. -/
def beatAction (bytes : List Byte) : HostAction :=
  updateAction (BitVec.ofNat 7 bytes.length) (packLanes bytes)

/-- `data` cut into `count` beats of 64 bytes except possibly the last. -/
def cutBeats : Nat → List Byte → List (List Byte)
  | 0, _ => []
  | count + 1, x => x.take 64 :: cutBeats count (x.drop 64)

/-- `UPDATE* data`: `ceil(n / 64)` beats when n > 0, the single beat `UPDATE 0` when n = 0 (30_encoding.md R105). -/
def updateStar (x : List Byte) : List HostAction :=
  if x.length = 0 then [beatAction []] else (cutBeats ((x.length + 63) / 64) x).map beatAction

/-- `CALCULATE data`: `INIT`; `UPDATE* data`; `FINALIZE` (30_encoding.md R106, 40_context_commands.md R127). -/
def calculate (x : List Byte) : List HostAction := initAction 0 :: updateStar x ++ [finalizeAction 0]

/-! ### Written syntax (30_encoding.md R104) -/

/-- A hexadecimal digit in lower case. -/
def hexDigit (n : Nat) : Char := ("0123456789abcdef".toList).getD n '?'

/-- A byte as a hex pair. -/
def hexPair (b : Byte) : List Char := [hexDigit (b.toNat / 16), hexDigit (b.toNat % 16)]

/-- The line of a command: `INIT`, `FINALIZE`, or `UPDATE len, <hex bytes>`. `UPDATE 0` has no bytes. -/
def commandLine (i : Instr) (data : BitVec 512) : String :=
  match i with
  | .init => "INIT"
  | .update len =>
    if len.toNat = 0 then "UPDATE 0"
    else "UPDATE " ++ toString len.toNat ++ "," ++
      String.ofList ((beatBytes len.toNat data).flatMap fun b => ' ' :: hexPair b)
  | .finalize => "FINALIZE"

end Sys2Proof.Machine
end

