-- ==== Sys2Proof/Machine/Reference.lean ====
section
/-! DEFINITION. The functions the spec's properties are stated with: `COMPRESS` as a pure function of a state and a block
(43_compression_unit.md R200), its sliding-window form (42_message_schedule.md R174), padding and the SHA-256 digest of a
byte sequence (40_context_commands.md R132), and the Update of data of any length (R122). `exec` uses none of them. -/

namespace Sys2Proof.Machine

/-- Successive groups of four bytes as big-endian words (00_scope.md section 6.3). -/
def wordsBE : List Byte → List Word
  | b0 :: b1 :: b2 :: b3 :: bytes => be32 b0 b1 b2 b3 :: wordsBE bytes
  | _ => []

/-- `W[0..15]` of a block: "Parse `block` into sixteen 32-bit big-endian words" (42_message_schedule.md R170). -/
def blockWords (B : Block) : List Word := wordsBE B.toList

/-- The next schedule word after `w`, which holds at least 16 words (42_message_schedule.md R171). -/
def nextWord (w : List Word) : Word :=
  expandSum (w.getD (w.length - 2) 0) (w.getD (w.length - 7) 0) (w.getD (w.length - 15) 0) (w.getD (w.length - 16) 0)

/-- `n` further schedule words. -/
def expandWords : Nat → List Word → List Word
  | 0, w => w
  | n + 1, w => expandWords n (w ++ [nextWord w])

/-- `W[0..63]`, a function of the block alone (42_message_schedule.md R175). -/
@[irreducible] def schedule (B : Block) : List Word := expandWords 48 (blockWords B)

/-- One round on the working variables (43_compression_unit.md R193). -/
def roundStep (v : Words8) (k w : Word) : Words8 := rotateVars v (roundT1 v k w) (roundT2 v)

/-- `COMPRESS(S, B)` (43_compression_unit.md R200). -/
@[irreducible] def compress (S : Words8) (B : Block) : Words8 :=
  addBack S ((kTable.zip (schedule B)).foldl (fun v kw => roundStep v kw.1 kw.2) S)

/-- The rounds with the round constants given, keeping only the next sixteen schedule words (42_message_schedule.md R174
(b) and (c)). -/
def windowRounds : List Word → List Word → Words8 → Words8
  | [], _, v => v
  | k :: ks, win, v => windowRounds ks (win.drop 1 ++ [nextWord win]) (roundStep v k (win.getD 0 0))

/-- A compressor that holds a sixteen-word window and computes each schedule word beside the rounds. -/
@[irreducible] def compressWindow (S : Words8) (B : Block) : Words8 := addBack S (windowRounds kTable (blockWords B) S)

/-- The first `count` blocks of 64 bytes. -/
def blocksOf : Nat → List Byte → List Block
  | 0, _ => []
  | count + 1, x => blockOf x :: blocksOf count (x.drop 64)

/-- `Sk = COMPRESS(S(k-1), Bk)` over a list of blocks (40_context_commands.md R132). -/
def hashBlocks (S : Words8) (blocks : List Block) : Words8 := blocks.foldl compress S

/-- `z = (55 - L) mod 64`, the count of zero bytes of the padding of `L` bytes (40_context_commands.md R132). -/
def padZeros (L : Nat) : Nat := (119 - L % 64) % 64

/-- `pad(x) = x ++ 80 ++ z zero bytes ++ bytes_be(8 L, 8)` (40_context_commands.md R132). -/
def padMessage (x : List Byte) : List Byte :=
  x ++ 0x80 :: List.replicate (padZeros x.length) 0x00 ++ bytesBE 8 (BitVec.ofNat 64 (8 * x.length))

/-- `SHA256(x)` (40_context_commands.md R132). -/
def sha256 (x : List Byte) : Vector Byte 32 :=
  serialize (hashBlocks IV (blocksOf ((padMessage x).length / 64) (padMessage x)))

/-- Step 2 of Update for data of any length: `count` blocks straight from the data. -/
def directAll (count : Nat) (d : List Byte) (s : State) : State :=
  (blocksOf count d).foldl (fun s B => blkDirect B s) s

/-- How many bytes of `d` step 1 of Update takes at occupancy `u`. -/
def takenByStep1 (u n : Nat) : Nat := if 0 < u ∧ 64 ≤ u + n then 64 - u else 0

/-- The document's Update for data of any length `n` (40_context_commands.md R122): step 1 compresses at most once, step 2
`(n - pos) div 64` times, step 3 keeps `(n - pos) mod 64` bytes. The consumption pointer is a number here, since the 7-bit
register `pos` is only defined for a beat of at most 64 bytes (10_state.md R36). -/
def updateGeneral (d : List Byte) (s : State) : State :=
  let k := takenByStep1 s.bufferUsed.toNat d.length
  let rest := d.drop k
  let s1 := if k = 0 then s else bufFlush (bufPuts (d.take k) s)
  let s2 := directAll (rest.length / 64) rest s1
  lenAdd d.length (bufPuts (rest.drop (64 * (rest.length / 64))) s2)

end Sys2Proof.Machine
end

