-- ==== Sys2Proof/Safety.lean ====
section
/-! DEFINITION. The terms claims use: the invariants of the spec, the relations between states, runs of steps, and the
command sequence of one message. -/

namespace Sys2Proof.Machine

/-- What holds between any two commands of a run: the unit is ready (30_encoding.md R91); in ACTIVE,
`0 <= buffer_used < 64` and `buffer_used = total_length mod 64` (10_state.md R25); in FINALIZED, `DG` serialises `H`
(10_state.md R28, 40_context_commands.md R126). -/
abbrev Inv (s : State) : Prop :=
  s.cmdReady = true ∧
  (s.phase = .active → s.bufferUsed.toNat < 64 ∧ s.bufferUsed.toNat = s.totalLength.toNat % 64) ∧
  (s.phase = .finalized → s.DG = serialize s.H)

/-- The bytes of the current incomplete block, `buffer[0 .. buffer_used-1]` (10_state.md R23). -/
def State.held (s : State) : List Byte := s.buffer.toList.take s.bufferUsed.toNat

/-- `s` is in ACTIVE and has absorbed exactly the bytes `x` since the last INIT, as 10_state.md R25 says it shows: `H` folds
`COMPRESS` from `IV` over the complete blocks of `x`, and the buffer holds the last `x.length mod 64` bytes. -/
structure Absorbed (x : List Byte) (s : State) : Prop where
  phase_active : s.phase = .active
  hash : s.H = hashBlocks IV (blocksOf (x.length / 64) x)
  total : s.totalLength = BitVec.ofNat 64 x.length
  used : s.bufferUsed.toNat = x.length % 64
  tail : s.held = x.drop (64 * (x.length / 64))

/-- The same `H`, `total_length`, `buffer_used` and `buffer[0 .. buffer_used-1]` (40_context_commands.md R123). -/
abbrev SameContext (s s' : State) : Prop :=
  s.H = s'.H ∧ s.totalLength = s'.totalLength ∧ s.bufferUsed = s'.bufferUsed ∧ s.held = s'.held

/-- The same specified state (40_context_commands.md R130): the status registers and the handshake agree, and so does what the
phase gives a meaning to: the context in ACTIVE, `H` and `DG` in FINALIZED, nothing more in UNINIT. Unspecified
registers, stale buffer bytes and transient registers may differ. -/
abbrev SameSpecified (s s' : State) : Prop :=
  s.phase = s'.phase ∧ s.fault = s'.fault ∧ s.cmdReady = s'.cmdReady ∧ s.rsp = s'.rsp ∧
  (s.phase = .active → SameContext s s') ∧
  (s.phase = .finalized → s.H = s'.H ∧ s.DG = s'.DG)

/-- `n` steps, stopping at the first fault or refusal. -/
def runSteps : Nat → State → Host.Outcome State Fault Refusal
  | 0, s => .next s
  | n + 1, s =>
    match step s with
    | .next s' => runSteps n s'
    | .fault r => .fault r
    | .refused r => .refused r

/-- The message that a list of beats `(len, cmd_data)` carries. -/
def messageOf (beats : List (BitVec 7 × BitVec 512)) : List Byte :=
  beats.flatMap fun b => beatBytes b.1.toNat b.2

/-- Every count is one a beat can have (30_encoding.md R97). -/
abbrev LegalBeats (beats : List (BitVec 7 × BitVec 512)) : Prop := ∀ b ∈ beats, b.1.toNat ≤ 64

/-- `INIT`; the beats; `FINALIZE`, with any values on `cmd_data` for `INIT` and `FINALIZE` (70_reset_and_hazards.md R263). -/
def messageActions (d0 : BitVec 512) (beats : List (BitVec 7 × BitVec 512)) (d1 : BitVec 512) : List HostAction :=
  initAction d0 :: beats.map (fun b => updateAction b.1 b.2) ++ [finalizeAction d1]

/-- A command word outside the 67 legal ones (30_encoding.md R98). -/
abbrev illegalWord (cw : BitVec 16) : Prop :=
  ¬ (cw = 0x1000#16 ∨ (0x2000#16 ≤ cw ∧ cw ≤ 0x2040#16) ∨ cw = 0x3000#16)

end Sys2Proof.Machine
end

