-- ==== Sys2Proof/Certificates/Slice0/Obligations.lean ====
section
/-! DEFINITION. The statements about the unit, one per numbered rule or group of rules of spec/.

Four conventions of the model stand in many of them. A step is one action of the host, taken from the head of `hostActions`
(log 1, log 2). The ports are fields, and a response stands until the next step (log 9). The unit is ready again together
with its response (log 10). A transient register holds between commands what the last micro-operation left in it (log 6).
The constants `IV` and `K` and the formulas of the compressor are the spec's general knowledge (log 8). -/

open Sys2Proof Sys2Proof.Machine

/-! ## Encoding -/

/-- Decode and encode agree: every command with every legal byte count decodes from its own encoding (30_encoding.md
section 3, R92, R94 to R97). -/
def Obligations.DecodeOfEncode : Prop :=
  ∀ i : Instr, i.wellFormed = true → decode (encode i) = .ok i

/-- Each legal word has one meaning and each command one word: what a word decodes to encodes back to that word, and is
well formed (30_encoding.md section 3). -/
def Obligations.EncodeOfDecode : Prop :=
  ∀ (cw : BitVec 16) (i : Instr), decode cw = .ok i → encode i = cw ∧ i.wellFormed = true

/-- The decoder is the procedure of 30_encoding.md R99, total on all words. -/
def Obligations.DecodeIsTheTotalProcedure : Prop :=
  ∀ cw : BitVec 16,
    (match decode cw with | .ok i => some i | .error _ => none) =
      (if cw.extractLsb' 7 5 ≠ 0#5 then none
       else if cw.extractLsb' 12 4 = 1#4 ∧ cw.extractLsb' 0 7 = 0#7 then some .init
       else if cw.extractLsb' 12 4 = 2#4 ∧ cw.extractLsb' 0 7 ≤ 64#7 then some (.update (cw.extractLsb' 0 7))
       else if cw.extractLsb' 12 4 = 3#4 ∧ cw.extractLsb' 0 7 = 0#7 then some .finalize
       else none)

/-- Which words are legal, and the class under which each other word is refused (30_encoding.md R98). The classes of R98
overlap: `1081` is in (b) and (c), `20c1` in (b) and (d). The decoder names such a word (b), as the procedure of R99 tests
`zero` before it reads `len`; that tie-break is the model's choice (log 18), and R99 itself only says ILLEGAL. -/
def Obligations.LegalWordsAndClasses : Prop :=
  ∀ cw : BitVec 16,
    ((∃ i, decode cw = .ok i) ↔ ¬ illegalWord cw) ∧
    (decode cw = .error .reservedOpcode ↔ opField cw = 0#4 ∨ 4#4 ≤ opField cw) ∧
    (decode cw = .error .nonzeroZeroField ↔ (1#4 ≤ opField cw ∧ opField cw ≤ 3#4) ∧ zeroField cw ≠ 0#5) ∧
    (decode cw = .error .unexpectedLen ↔
      (opField cw = 1#4 ∨ opField cw = 3#4) ∧ zeroField cw = 0#5 ∧ lenField cw ≠ 0#7) ∧
    (decode cw = .error .lenOver64 ↔ opField cw = 2#4 ∧ zeroField cw = 0#5 ∧ 65 ≤ (lenField cw).toNat)

/-- Words of 95_test_vectors.md section 2, written out bit by bit from 30_encoding.md R92 to R98. -/
def Obligations.SampleWordsDecode : Prop :=
  decode 0b0001000000000000#16 = .ok .init ∧
  decode 0b0010000000000000#16 = .ok (.update 0) ∧
  decode 0b0010000000000011#16 = .ok (.update 3) ∧
  decode 0b0010000001000000#16 = .ok (.update 64) ∧
  decode 0b0011000000000000#16 = .ok .finalize ∧
  decode 0b0010000001000001#16 = .error .lenOver64 ∧
  decode 0b0010000010000000#16 = .error .nonzeroZeroField ∧
  decode 0b0001000000000001#16 = .error .unexpectedLen ∧
  decode 0b0000000000000000#16 = .error .reservedOpcode

/-! ## Steps -/

/-- A step runs the decoded command: when the unit is ready and the host presents a command word that decodes to `i`, the
step is `exec i` on the state in which the word and the data are on the ports, `cmd_ready` is 0 and no response is out
(30_encoding.md R91). That the step takes the whole command from the head of the host's actions is log 1 and log 2, that
the ports are fields is log 9. -/
def Obligations.StepRunsDecodedCommand : Prop :=
  ∀ (s : State) (cw : BitVec 16) (data : BitVec 512) (rest : List HostAction) (i : Instr),
    s.cmdReady = true → s.hostActions = .command cw data :: rest → decode cw = .ok i →
    step s = exec i { s with cmdWord := cw, cmdData := data, cmdReady := false, rsp := none, hostActions := rest }

/-- An illegal word is refused in every phase with ILLEGAL_COMMAND, whatever the data: `fault` is set, the response is
code 10, and every other register keeps its value (60_exceptions.md R232, R234). R234 has the unit ready for the next
command; that it is ready together with the response is the model's choice (log 10), as are the input ports as fields
(log 9) and the host's list of actions (log 2). -/
def Obligations.IllegalWordIsRefused : Prop :=
  ∀ (s : State) (cw : BitVec 16) (data : BitVec 512) (rest : List HostAction),
    s.cmdReady = true → s.hostActions = .command cw data :: rest → illegalWord cw →
    step s = .next { s with
      fault := true, rsp := some .illegalCommand, cmdWord := cw, cmdData := data, hostActions := rest }

/-- With nothing presented the unit is idle and holds its state (60_exceptions.md R245), and a command presented while
`cmd_ready` is 0 is not transferred (70_reset_and_hazards.md R265). Two clauses are the model's choice. That the response
of the command before stands for one step and an idle step withdraws it is log 9, from `rsp_valid = 1` "for one cycle"
(30_encoding.md R91). That a command not transferred stays at the head of the host's actions is log 10: R265 has it "held
or presented again". -/
def Obligations.IdleHoldsAndBusyDoesNotTransfer : Prop :=
  (∀ s : State, s.hostActions = [] → step s = .next { s with rsp := none }) ∧
  (∀ (s : State) (rest : List HostAction), s.hostActions = .idle :: rest →
    step s = .next { s with rsp := none, hostActions := rest }) ∧
  (∀ (s : State) (cw : BitVec 16) (data : BitVec 512) (rest : List HostAction),
    s.cmdReady = false → s.hostActions = .command cw data :: rest → step s = .next { s with rsp := none })

/-- The reset event, also when it aborts a command: UNINIT, `fault` 0, ready, no response, status 0000, digest port zero
(70_reset_and_hazards.md R260, R261). Nothing is said of any other register: they are free values (log 4). That
the step takes the one action from the head of the host's list is log 2. -/
def Obligations.ResetEventClears : Prop :=
  ∀ (s : State) (rest : List HostAction),
    (s.hostActions = .reset :: rest ∨ ∃ cw data, s.hostActions = .abortedCommand cw data :: rest) →
    ∃ t, step s = .next t ∧ t.phase = .uninit ∧ t.fault = false ∧ t.cmdReady = true ∧ t.rsp = none ∧
      t.hostActions = rest ∧ t.status = 0b0000#4 ∧ t.digestValid = false ∧ t.digestPort = 0#256

/-- What reset leaves: `phase` UNINIT, `fault` 0, status 0000, no digest, no response, ready, and INIT is the only command
that is accepted (70_reset_and_hazards.md R260, R262). -/
def Obligations.AfterResetOnlyInitIsAccepted : Prop :=
  State.reset.phase = .uninit ∧ State.reset.fault = false ∧ State.reset.status = 0b0000#4 ∧
  State.reset.digestValid = false ∧ State.reset.digestPort = 0#256 ∧ State.reset.rsp = none ∧
  State.reset.cmdReady = true ∧
  (∀ i : Instr, i.wellFormed = true → ∃ t, exec i State.reset = .next t ∧
    t.rsp = some (if i = .init then .ok else .invalidContextState) ∧
    t.phase = (if i = .init then .active else .uninit))

/-- Every transferred command gives exactly one response and consumes exactly itself, from every state that keeps the
invariant: none runs into the model's fault, none hangs (30_encoding.md R91, 70_reset_and_hazards.md R275). That
`cmd_ready` is 1 again with the response is the model's choice (log 10); R91 says no earlier than the response. -/
def Obligations.EveryCommandResponds : Prop :=
  ∀ (s : State) (cw : BitVec 16) (data : BitVec 512) (rest : List HostAction),
    Inv s → s.hostActions = .command cw data :: rest →
    ∃ t code, step s = .next t ∧ t.rsp = some code ∧ t.cmdReady = true ∧ t.hostActions = rest

/-- The phase table of 70_reset_and_hazards.md R263, with its responses: INIT, UPDATE and FINALIZE in each phase, an
illegal word, and reset. The table is an inference the spec marks as its own. -/
def Obligations.PhaseTransitions : Prop :=
  ∀ (s : State) (cw : BitVec 16) (data : BitVec 512) (rest : List HostAction), Inv s →
    (s.hostActions = .command cw data :: rest → ∃ t, step s = .next t ∧
      (cw = 0x1000#16 → t.phase = .active ∧ t.rsp = some .ok) ∧
      (0x2000#16 ≤ cw → cw ≤ 0x2040#16 →
        t.phase = s.phase ∧ t.rsp = some (if s.phase = .active then .ok else .invalidContextState)) ∧
      (cw = 0x3000#16 →
        t.phase = (if s.phase = .active then .finalized else s.phase) ∧
        t.rsp = some (if s.phase = .active then .ok else .invalidContextState)) ∧
      (illegalWord cw → t.phase = s.phase ∧ t.rsp = some .illegalCommand)) ∧
    (s.hostActions = .reset :: rest → ∃ t, step s = .next t ∧ t.phase = .uninit)

/-! ## INIT -/

/-- INIT from every state and in every phase: the constants, the zeroed counters, ACTIVE, OK, and `buffer`, `DG` and
`fault` as before (40_context_commands.md R120). INIT twice is INIT once. The state is given whole, and three of its clauses
are the model's choice, on which R120 is silent: that the transient registers (`W`, `a..h`, `T1`, `T2`, `t`, `bitlen`,
`pos`) keep their values is log 6, that `cmd_ready` is 1 with the response is log 10, and that the input ports keep what
they had is log 9. The values of the constants are the spec's general knowledge (10_state.md R21; log 8). -/
def Obligations.InitResult : Prop :=
  ∀ s : State, ∃ t, exec .init s = .next t ∧
    t = { s with
      H := ⟨0x6a09e667, 0xbb67ae85, 0x3c6ef372, 0xa54ff53a, 0x510e527f, 0x9b05688c, 0x1f83d9ab, 0x5be0cd19⟩
      totalLength := 0, bufferUsed := 0, phase := .active, rsp := some .ok, cmdReady := true } ∧
    t.status = (if s.fault then 0b0101#4 else 0b0001#4) ∧ t.digestValid = false ∧ t.digestPort = 0#256 ∧
    exec .init t = .next t ∧ encode .init = 0x1000#16

/-! ## UPDATE -/

/-- UPDATE executes normally in ACTIVE for every byte count of 0 to 64, whatever the data: OK, `buffer_used' =
(buffer_used + n) mod 64`, `total_length' = total_length +64 n`, the phase unchanged (40_context_commands.md R121). -/
def Obligations.UpdateCompletesInActive : Prop :=
  ∀ (s : State) (len : BitVec 7), s.phase = .active → s.bufferUsed.toNat < 64 → len.toNat ≤ 64 →
    ∃ t, exec (.update len) s = .next t ∧ t.rsp = some .ok ∧ t.phase = .active ∧
      t.bufferUsed.toNat = (s.bufferUsed.toNat + len.toNat) % 64 ∧
      t.totalLength = s.totalLength + len.setWidth 64

/-- UPDATE that does not complete a block: the bytes go to the offsets from `buffer_used`, every other byte of `buffer`
and `H` keep their values (40_context_commands.md R121; case B of 41_padding_buffer.md R159). -/
def Obligations.UpdateStoresTail : Prop :=
  ∀ (s : State) (len : BitVec 7), s.phase = .active → s.bufferUsed.toNat + len.toNat < 64 →
    ∃ t, exec (.update len) s = .next t ∧ t.H = s.H ∧
      ∀ j (h : j < 64), t.buffer[j] =
        if s.bufferUsed.toNat ≤ j ∧ j < s.bufferUsed.toNat + len.toNat
        then lane s.cmdData (j - s.bufferUsed.toNat) else s.buffer[j]

/-- UPDATE that completes a partly filled buffer: the block of the held bytes and the first `64 - buffer_used` lanes is
folded into `H`, and the other lanes are kept from offset 0 (40_context_commands.md R121; case C of 41_padding_buffer.md
R159). -/
def Obligations.UpdateCompletesBlock : Prop :=
  ∀ (s : State) (len : BitVec 7), s.phase = .active → 0 < s.bufferUsed.toNat → s.bufferUsed.toNat < 64 →
    len.toNat ≤ 64 → 64 ≤ s.bufferUsed.toNat + len.toNat →
    ∃ t, exec (.update len) s = .next t ∧
      t.H = compress s.H (blockOf (s.held ++ beatBytes (64 - s.bufferUsed.toNat) s.cmdData)) ∧
      ∀ j (h : j < 64), t.buffer[j] =
        if j < s.bufferUsed.toNat + len.toNat - 64 then lane s.cmdData (64 - s.bufferUsed.toNat + j)
        else if s.bufferUsed.toNat ≤ j then lane s.cmdData (j - s.bufferUsed.toNat)
        else s.buffer[j]

/-- UPDATE of a whole block at an empty buffer takes the bypass path: the 64 lanes are folded into `H`, `buffer` is not
written and `buffer_used` stays 0 (40_context_commands.md R121; case D of 41_padding_buffer.md R159). -/
def Obligations.UpdateBypassesBuffer : Prop :=
  ∀ s : State, s.phase = .active → s.bufferUsed = 0 →
    ∃ t, exec (.update 64) s = .next t ∧ t.H = compress s.H (blockOf (beatBytes 64 s.cmdData)) ∧
      t.buffer = s.buffer ∧ t.bufferUsed = 0 ∧ t.totalLength = s.totalLength + 64

/-- The frame of an accepted UPDATE: `phase`, `fault`, `DG`, the input ports and the host's actions are unchanged, and
every byte of `buffer` outside the offsets stored to; a beat that completes no block also leaves `H`
(40_context_commands.md R121; the cases are the table of 41_padding_buffer.md R159, an inference the spec marks as its
own). That `bitlen`, and in a beat that completes no block the compressor's registers, hold after the beat what they held
before is the model's choice about transient registers between two commands (log 6); the input ports as fields are log 9,
the host's list is log 2. -/
def Obligations.UpdateFrame : Prop :=
  ∀ (s t : State) (len : BitVec 7), s.phase = .active → len.toNat ≤ 64 → exec (.update len) s = .next t →
    t.phase = s.phase ∧ t.fault = s.fault ∧ t.DG = s.DG ∧ t.bitlen = s.bitlen ∧ t.cmdWord = s.cmdWord ∧
    t.cmdData = s.cmdData ∧ t.hostActions = s.hostActions ∧
    (s.bufferUsed.toNat + len.toNat < 64 →
      t.H = s.H ∧ t.comp = s.comp) ∧
    ∀ j (h : j < 64),
      (s.bufferUsed.toNat + len.toNat < 64 → j < s.bufferUsed.toNat ∨ s.bufferUsed.toNat + len.toNat ≤ j →
        t.buffer[j] = s.buffer[j]) ∧
      (64 ≤ s.bufferUsed.toNat + len.toNat → s.bufferUsed.toNat + len.toNat - 64 ≤ j → j < s.bufferUsed.toNat →
        t.buffer[j] = s.buffer[j]) ∧
      (s.bufferUsed.toNat = 0 → len.toNat = 64 → t.buffer[j] = s.buffer[j])

/-- The empty update changes no state at all, the transient `pos` included, and answers OK (40_context_commands.md R121,
corner case `n = 0`). 20_memory.md R72 says the same as an inference the spec marks as its own; that this goes before the
first line of the pseudocode, which writes `pos`, is log 6, and `cmd_ready` 1 with the response is log 10. -/
def Obligations.EmptyUpdateChangesNothing : Prop :=
  ∀ s : State, s.phase = .active → s.bufferUsed.toNat < 64 →
    exec (.update 0) s = .next { s with rsp := some .ok, cmdReady := true }

/-- Lanes a command does not use affect nothing: all of them for INIT and FINALIZE, lanes `len` to 63 for UPDATE
(30_encoding.md R100). -/
def Obligations.UnusedLanesAreIgnored : Prop :=
  ∀ (s : State) (d d' : BitVec 512) (i : Instr),
    (match i with | .update len => ∀ k < len.toNat, lane d k = lane d' k | _ => True) →
    (∀ t, exec i { s with cmdData := d } = .next t → exec i { s with cmdData := d' } = .next { t with cmdData := d' }) ∧
    (∀ r, exec i { s with cmdData := d } = .fault r → exec i { s with cmdData := d' } = .fault r)

/-- An accepted UPDATE beat does what the micro-sequence of its case in the table of 41_padding_buffer.md R159 does, up to
the beat's own consumption pointer. The table is an inference the spec marks as its own. That the transient registers hold
after the beat what the sequence left in them is log 6, and `cmd_ready` 1 with the response is log 10. -/
def Obligations.UpdateIsItsMicroSequence : Prop :=
  ∀ (s : State) (len : BitVec 7), s.phase = .active → s.bufferUsed.toNat < 64 → len.toNat ≤ 64 →
    ∃ p, exec (.update len) s = .next { runMicro
      (updateMicro s.bufferUsed.toNat (beatBytes len.toNat s.cmdData)) s with pos := p, rsp := some .ok, cmdReady := true }

/-- The document's Update for data of any length, restricted to at most 64 bytes, is the command (40_context_commands.md
R122), up to the beat's own consumption pointer. That the transient registers hold after the beat what the general Update
left in them is log 6, and `cmd_ready` 1 with the response is log 10. -/
def Obligations.BeatIsGeneralUpdate : Prop :=
  ∀ (s : State) (len : BitVec 7), s.phase = .active → s.bufferUsed.toNat < 64 → len.toNat ≤ 64 →
    ∃ p, exec (.update len) s =
      .next { updateGeneral (beatBytes len.toNat s.cmdData) s with pos := p, rsp := some .ok, cmdReady := true }

/-- Cutting the data changes nothing: the general Update on `x` and then on `y` leaves the same context as on `x ++ y`
(40_context_commands.md R123, an inference the spec marks as its own). -/
def Obligations.CuttingDataIsHarmless : Prop :=
  ∀ (s : State) (x y : List Byte), s.phase = .active → s.bufferUsed.toNat < 64 →
    SameContext (updateGeneral y (updateGeneral x s)) (updateGeneral (x ++ y) s)

/-! ## FINALIZE -/

/-- FINALIZE executes normally in ACTIVE: OK, FINALIZED, the digest valid, `DG` the serialisation of the final `H`,
`fault` unchanged (40_context_commands.md R124). The final `H` folds the one or two blocks that R124 writes out on the
occupancy `u`. -/
def Obligations.FinalizeResult : Prop :=
  ∀ s : State, s.phase = .active → s.bufferUsed.toNat < 64 →
    ∃ t, exec .finalize s = .next t ∧ t.rsp = some .ok ∧ t.phase = .finalized ∧ t.digestValid = true ∧
      t.fault = s.fault ∧ t.DG = serialize t.H ∧
      (s.bufferUsed.toNat ≤ 55 → t.H = compress s.H (blockOf
        (s.held ++ (0x80 : Byte) :: List.replicate (55 - s.bufferUsed.toNat) (0x00 : Byte) ++ bytesBE 8 (s.totalLength <<< 3)))) ∧
      (56 ≤ s.bufferUsed.toNat → t.H = compress
        (compress s.H (blockOf (s.held ++ (0x80 : Byte) :: List.replicate (63 - s.bufferUsed.toNat) (0x00 : Byte))))
        (blockOf (List.replicate 56 (0x00 : Byte) ++ bytesBE 8 (s.totalLength <<< 3))))

/-- The frame of an accepted FINALIZE: `fault`, the input ports (log 9) and the host's actions (log 2) are unchanged. It
writes `H`, `DG` and `phase`, and leaves the length and buffer registers and the transient registers unspecified, so the frame says nothing
of those (40_context_commands.md R124, R126; for `T1` and `T2` log 5). -/
def Obligations.FinalizeFrame : Prop :=
  ∀ s t : State, s.phase = .active → exec .finalize s = .next t →
    t.fault = s.fault ∧ t.cmdWord = s.cmdWord ∧ t.cmdData = s.cmdData ∧ t.hostActions = s.hostActions

/-- An accepted FINALIZE does what the micro-sequence of its case in the table of 41_padding_buffer.md R160 does, with
that case's count of compressions and without LEN_ADD, and then leaves the registers of 40_context_commands.md R126
unspecified and enters FINALIZED. The table is an inference the spec marks as its own. `T1` and `T2` count among the
unspecified registers by log 5. -/
def Obligations.FinalizeIsItsMicroSequence : Prop :=
  ∀ s : State, s.phase = .active → s.bufferUsed.toNat < 64 →
    exec .finalize s = .next (respond .ok
      { releaseContext (runMicro (finalizeMicro s.bufferUsed.toNat) s) with phase := .finalized }) ∧
    compressions (finalizeMicro s.bufferUsed.toNat) = (if s.bufferUsed.toNat ≤ 55 then 1 else 2) ∧
    ∀ n, MicroOp.lenAdd n ∉ finalizeMicro s.bufferUsed.toNat

/-- The compressions of the commands: `(buffer_used + len) div 64` in a beat; 1 in FINALIZE up to occupancy 55, else 2;
and for a message of `L` bytes, however it is cut into beats, `(L + 8) div 64 + 1` in all (40_context_commands.md R131, an
inference the spec marks as its own). -/
def Obligations.CompressionCounts : Prop :=
  (∀ (u : Nat) (d : List Byte), u < 64 → d.length ≤ 64 → compressions (updateMicro u d) = (u + d.length) / 64) ∧
  (∀ u : Nat, u < 64 → compressions (finalizeMicro u) = if u ≤ 55 then 1 else 2) ∧
  (∀ lens : List Nat, beatCompressions 0 lens = lens.sum / 64 ∧
    beatCompressions 0 lens + compressions (finalizeMicro (lens.sum % 64)) = (lens.sum + 8) / 64 + 1)

/-- The control of a command depends on the lengths alone, never on the data: two beats of one length go through the same
kinds of micro-operation (41_padding_buffer.md R161). -/
def Obligations.ControlIgnoresData : Prop :=
  ∀ (u : Nat) (d d' : List Byte), d.length = d'.length →
    (updateMicro u d).map MicroOp.kind = (updateMicro u d').map MicroOp.kind

/-- The padding of a message of `L` bytes: `z = (55 - L) mod 64` is the least count of zero bytes that makes the padded
length a multiple of 64 (40_context_commands.md R132), and the six boundary lengths (R133). That the padded message is `(L
+ 8) div 64 + 1` blocks is an inference the spec marks as its own in R131. -/
def Obligations.PaddingLengths : Prop :=
  (∀ L : Nat, (L + 1 + padZeros L + 8) % 64 = 0 ∧ ∀ z, (L + 1 + z + 8) % 64 = 0 → padZeros L ≤ z) ∧
  (∀ x : List Byte, (padMessage x).length = 64 * ((x.length + 8) / 64 + 1)) ∧
  padZeros 55 = 0 ∧ padZeros 56 = 63 ∧ padZeros 57 = 62 ∧ padZeros 63 = 56 ∧ padZeros 64 = 55 ∧ padZeros 65 = 54

/-! ## Refusals -/

/-- INVALID_CONTEXT_STATE: UPDATE (with `len` 0 too) and FINALIZE outside ACTIVE set `fault`, answer code 01 and change
nothing else (60_exceptions.md R231, R234). INIT never raises it. R234 has the unit ready for the next command; that it is
ready together with the response is the model's choice (log 10). -/
def Obligations.MisuseIsRefused : Prop :=
  ∀ s : State,
    (s.phase ≠ .active →
      (∀ len : BitVec 7, len.toNat ≤ 64 → exec (.update len) s =
        .next { s with fault := true, rsp := some .invalidContextState, cmdReady := true }) ∧
      exec .finalize s = .next { s with fault := true, rsp := some .invalidContextState, cmdReady := true }) ∧
    (∀ t, exec .init s = .next t → t.rsp = some .ok)

/-- A refused command changes nothing but `fault`: every other register, the status apart from that bit, and the digest
port are as before (60_exceptions.md R234). R234 has the unit ready for the next command; that it is ready together with
the response is the model's choice (log 10). -/
def Obligations.RefusalIsPrecise : Prop :=
  ∀ (s t : State) (i : Instr), exec i s = .next t → t.rsp ≠ some .ok →
    t = { s with fault := true, rsp := t.rsp, cmdReady := true } ∧
    t.digestPort = s.digestPort ∧ t.digestValid = s.digestValid

/-- `fault` is sticky: only a reset clears it, every refused command sets it, and no accepted command changes it
(10_state.md R27). -/
def Obligations.FaultIsSticky : Prop :=
  ∀ s t : State, step s = .next t →
    (s.fault = true → t.fault = false → ∃ rest,
      s.hostActions = .reset :: rest ∨ ∃ cw data, s.hostActions = .abortedCommand cw data :: rest) ∧
    (t.rsp = some .invalidContextState ∨ t.rsp = some .illegalCommand → t.fault = true) ∧
    (t.rsp = some .ok → t.fault = s.fault)

/-- `fault` has no effect on any command: a unit with the flag changed executes every command alike, and an accepted
command carries the flag through (10_state.md R27). -/
def Obligations.FaultHasNoEffect : Prop :=
  ∀ (s t : State) (i : Instr) (b : Bool), exec i s = .next t →
    exec i { s with fault := b } = .next { t with fault := if t.rsp = some .ok then b else true }

/-- Where the model stops: exactly UPDATE (with a legal count) and FINALIZE in ACTIVE at an occupancy of 64 or more, which
the invariant excludes; nothing is refused for want of a meaning (the model's own choice, log 7; 41_padding_buffer.md
R150, 10_state.md R25). -/
def Obligations.OnlyOccupancyStops : Prop :=
  ∀ (s : State) (i : Instr),
    ((∃ r, exec i s = .fault r) ↔
      s.phase = .active ∧ 64 ≤ s.bufferUsed.toNat ∧ i ≠ .init ∧ i.wellFormed = true) ∧
    (∀ r, exec i s ≠ .refused r) ∧
    (Inv s → ∃ t, step s = .next t)

/-! ## The compressor -/

/-- CH selects bit by bit, its two terms never overlap, and the spec's examples (43_compression_unit.md R187). The formula
is the spec's general knowledge (log 8); what follows from it is an inference the spec marks as its own. -/
def Obligations.ChSelects : Prop :=
  (∀ x y z : Word, ch x y z = (x &&& y) ^^^ (~~~x &&& z) ∧
    (∀ i < 32, (ch x y z).getLsbD i = if x.getLsbD i then y.getLsbD i else z.getLsbD i) ∧
    ch x y z = (x &&& y) ||| (~~~x &&& z) ∧ ch x y z = (x &&& y) + (~~~x &&& z) ∧
    ch 0x00000000 y z = z ∧ ch 0xffffffff y z = y) ∧
  ch 0xf0f0f0f0 0xcccccccc 0xaaaaaaaa = 0xcacacaca ∧ ch 0x510e527f 0x9b05688c 0x1f83d9ab = 0x1f85c98c

/-- MAJ is the bitwise majority, symmetric in its arguments, and the spec's examples (43_compression_unit.md R188). The
formula is the spec's general knowledge (log 8); what follows from it is an inference the spec marks as its own. -/
def Obligations.MajIsMajority : Prop :=
  (∀ x y z : Word, maj x y z = (x &&& y) ^^^ (x &&& z) ^^^ (y &&& z) ∧
    (∀ i < 32, (maj x y z).getLsbD i =
      (x.getLsbD i && y.getLsbD i || x.getLsbD i && z.getLsbD i || y.getLsbD i && z.getLsbD i)) ∧
    maj x y z = maj y x z ∧ maj x y z = maj x z y) ∧
  maj 0 0 0 = 0 ∧ maj 0xffffffff 0x12345678 0x9abcdef0 = 0x9abcdef8 ∧
  maj 0x00000000 0x12345678 0x9abcdef0 = 0x12345670 ∧ maj 0xf0f0f0f0 0xcccccccc 0xaaaaaaaa = 0xe8e8e8e8 ∧
  maj 0x6a09e667 0xbb67ae85 0x3c6ef372 = 0x3a6fe667

/-- The four sigma functions are the rotations and shifts of 42_message_schedule.md R172, R173 and 43_compression_unit.md
R189, R190, linear over XOR, with the spec's examples. The formulas are the spec's general knowledge (log 8); linearity is
an inference the spec marks as its own. -/
def Obligations.SigmaFunctions : Prop :=
  (∀ x : Word,
    ssig0 x = x.rotateRight 7 ^^^ x.rotateRight 18 ^^^ x >>> 3 ∧
    ssig1 x = x.rotateRight 17 ^^^ x.rotateRight 19 ^^^ x >>> 10 ∧
    bsig0 x = x.rotateRight 2 ^^^ x.rotateRight 13 ^^^ x.rotateRight 22 ∧
    bsig1 x = x.rotateRight 6 ^^^ x.rotateRight 11 ^^^ x.rotateRight 25) ∧
  (∀ x y : Word, ssig0 (x ^^^ y) = ssig0 x ^^^ ssig0 y ∧ ssig1 (x ^^^ y) = ssig1 x ^^^ ssig1 y ∧
    bsig0 (x ^^^ y) = bsig0 x ^^^ bsig0 y ∧ bsig1 (x ^^^ y) = bsig1 x ^^^ bsig1 y) ∧
  (ssig0 0 = 0 ∧ ssig1 0 = 0 ∧ bsig0 0 = 0 ∧ bsig1 0 = 0) ∧
  (bsig0 0xffffffff = 0xffffffff ∧ bsig1 0xffffffff = 0xffffffff) ∧
  (ssig0 0x00000001 = 0x02004000 ∧ ssig0 0x80000000 = 0x11002000 ∧ ssig0 0xffffffff = 0x1fffffff ∧
    ssig0 0x12345678 = 0xe7fce6ee) ∧
  (ssig1 0x00000001 = 0x0000a000 ∧ ssig1 0x80000000 = 0x00205000 ∧ ssig1 0xffffffff = 0x003fffff ∧
    ssig1 0x12345678 = 0xa1f78649) ∧
  (bsig0 0x00000001 = 0x40080400 ∧ bsig0 0x80000000 = 0x20040200 ∧ bsig0 0x12345678 = 0x66146474 ∧
    bsig0 0x6a09e667 = 0xce20b47e) ∧
  (bsig1 0x00000001 = 0x04200080 ∧ bsig1 0x80000000 = 0x02100040 ∧ bsig1 0x12345678 = 0x3561abda ∧
    bsig1 0x510e527f = 0x3587272b)

/-- MS_LOAD and all MS_EXPANDs leave the schedule of the block: the first sixteen words are the block's bytes big-endian,
every further word is the sum of 42_message_schedule.md R171, and nothing but `W` changes (R170, R171; 20_memory.md R64).
-/
def Obligations.ScheduleWords : Prop :=
  ∀ (B : Block) (r : Compressor), ∃ W : Vector Word 64, msExpandAll (msLoad B r) = { r with W := W } ∧
    (∀ i (h : i < 16), W[i].toNat =
      B[4 * i].toNat * 2 ^ 24 + B[4 * i + 1].toNat * 2 ^ 16 + B[4 * i + 2].toNat * 2 ^ 8 + B[4 * i + 3].toNat) ∧
    (∀ t (h : 16 ≤ t) (h' : t < 64), W[t] = ssig1 W[t - 2] + W[t - 7] + ssig0 W[t - 15] + W[t - 16])

/-- CU_ROUND: the sums of 43_compression_unit.md R193, the simultaneous write of the eight working variables, `t` counted
up, and nothing else changed; with the spec's round 0 of the block of "abc". -/
def Obligations.RoundResult : Prop :=
  (∀ r : Compressor, r.t.toNat ≤ 63 → ∃ T1 T2 : Word,
    T1 = r.vars.h + bsig1 r.vars.e + ch r.vars.e r.vars.f r.vars.g + K r.t.toNat + wordAt r.W r.t.toNat ∧
    T2 = bsig0 r.vars.a + maj r.vars.a r.vars.b r.vars.c ∧
    cuRound r = { r with
      T1 := T1, T2 := T2, t := r.t + 1
      vars := ⟨T1 + T2, r.vars.a, r.vars.b, r.vars.c, r.vars.d + T1, r.vars.e, r.vars.f, r.vars.g⟩ } ∧
    (cuRound r).t.toNat = r.t.toNat + 1) ∧
  roundT1 IV (K 0) 0x61626380 = 0x54da50e8 ∧ roundT2 IV = 0x08909ae5 ∧
  roundStep IV (K 0) 0x61626380 =
    ⟨0x5d6aebcd, 0x6a09e667, 0xbb67ae85, 0x3c6ef372, 0xfa2a4622, 0x510e527f, 0x9b05688c, 0x1f83d9ab⟩ ∧
  roundStep ⟨0, 0, 0, 0, 0, 0, 0, 0⟩ (K 0) 0 = ⟨0x428a2f98, 0, 0, 0, 0x428a2f98, 0, 0, 0⟩

/-- The unit's compression, register by register, is the pure function COMPRESS of `H` and the block: `H` becomes
`COMPRESS(H, B)`, 64 rounds are done, and no context, lifecycle or port register but `H` changes (43_compression_unit.md
R200). -/
def Obligations.CompressionRefinesCompress : Prop :=
  ∀ (B : Block) (s : State), ∃ r : Compressor,
    compressBlock B s = { s with H := compress s.H B, comp := r } ∧ r.t = 64

/-- The sliding window of sixteen words, computed beside the rounds, gives the same function as the array of sixty-four
words filled before them (42_message_schedule.md R174, an inference the spec marks as its own). -/
def Obligations.WindowScheduleIsEquivalent : Prop :=
  ∀ (S : Words8) (B : Block), compressWindow S B = compress S B

/-! ## The padding buffer -/

/-- BUF_PUT at an occupancy of at most 63: the byte at offset `buffer_used`, `buffer_used` counted up to at most 64, every
other byte and every other register unchanged (41_padding_buffer.md R150). -/
def Obligations.BufPutResult : Prop :=
  ∀ (s : State) (b : Byte), s.bufferUsed.toNat ≤ 63 → ∃ B : Block,
    bufPut b s = { s with buffer := B, bufferUsed := s.bufferUsed + 1 } ∧
    (bufPut b s).bufferUsed.toNat = s.bufferUsed.toNat + 1 ∧
    ∀ j (h : j < 64), B[j] = if j = s.bufferUsed.toNat then b else s.buffer[j]

/-- BUF_FLUSH folds the buffer into `H`, empties it and keeps its bytes; BLK_DIRECT folds the given block and writes
neither `buffer` nor `buffer_used`; both write nothing else but the compressor's registers; and at an empty buffer it
gives the same `H` as sixty-four BUF_PUTs and a BUF_FLUSH (41_padding_buffer.md R151, R152; 20_memory.md R79). -/
def Obligations.FlushAndDirectAgree : Prop :=
  (∀ s : State, ∃ r, bufFlush s = { s with H := compress s.H s.buffer, bufferUsed := 0, comp := r }) ∧
  (∀ (s : State) (B : Block), ∃ r, blkDirect B s = { s with H := compress s.H B, comp := r }) ∧
  (∀ (s : State) (d : List Byte), s.bufferUsed = 0 → d.length = 64 →
    (bufFlush (bufPuts d s)).H = (blkDirect (blockOf d) s).H ∧
    (bufFlush (bufPuts d s)).bufferUsed = (blkDirect (blockOf d) s).bufferUsed)

/-- LEN_ADD and PAD_LATCH wrap modulo 2^64: `total_length + n` and `8 * total_length`, with the spec's examples
(41_padding_buffer.md R153, R154). -/
def Obligations.CounterArithmetic : Prop :=
  (∀ (s : State) (n : Nat), n ≤ 64 → ∃ c : Dword, lenAdd n s = { s with totalLength := c } ∧
    c.toNat = (s.totalLength.toNat + n) % 2 ^ 64) ∧
  (∀ s : State, ∃ c : Dword, padLatch s = { s with bitlen := c } ∧ c.toNat = 8 * s.totalLength.toNat % 2 ^ 64) ∧
  (∀ s : State, s.totalLength = 0 → (padLatch s).bitlen = 0) ∧
  (∀ s : State, s.totalLength = 3 → (padLatch s).bitlen = 0x18) ∧
  (∀ s : State, s.totalLength = 0x1fffffffffffffff → (padLatch s).bitlen = 0xfffffffffffffff8) ∧
  (∀ s : State, s.totalLength = 0x2000000000000000 → (padLatch s).bitlen = 0)

/-- PAD_MARK then PAD_ZERO from every occupancy: exactly 56 bytes end up in the buffer, all zeros after a wrap, and a
compression happens exactly when the marker leaves no room for the length (41_padding_buffer.md R155, R156). -/
def Obligations.PaddingReachesOffset56 : Prop :=
  ∀ s : State, s.bufferUsed.toNat < 64 →
    (padZero (padMark s)).bufferUsed.toNat = 56 ∧ (padZero (padMark s)).totalLength = s.totalLength ∧
    (s.bufferUsed.toNat ≤ 55 →
      (padZero (padMark s)).H = s.H ∧
      (padZero (padMark s)).held = s.held ++ (0x80 : Byte) :: List.replicate (55 - s.bufferUsed.toNat) (0x00 : Byte)) ∧
    (56 ≤ s.bufferUsed.toNat →
      (padZero (padMark s)).H =
        compress s.H (blockOf (s.held ++ (0x80 : Byte) :: List.replicate (63 - s.bufferUsed.toNat) (0x00 : Byte))) ∧
      (padZero (padMark s)).held = List.replicate 56 (0x00 : Byte))

/-- The length field of PAD_LEN is big-endian at offsets 56 to 63, and after MS_LOAD of that block `W[14]` and `W[15]` are
its upper and lower words (41_padding_buffer.md R157, 20_memory.md R65; the two words are an inference the spec marks as
its own). -/
def Obligations.LengthFieldIsBigEndian : Prop :=
  ∀ s : State,
    (∀ i (h : i < 8), (putLength s).buffer[56 + i] = s.bitlen.extractLsb' (8 * (7 - i)) 8) ∧
    (∀ j (h : j < 56), (putLength s).buffer[j] = s.buffer[j]) ∧
    (padLen s).bufferUsed = 0 ∧ (padLen s).H = compress s.H (putLength s).buffer ∧
    (msLoad (putLength s).buffer s.comp).W[14] = s.bitlen.extractLsb' 32 32 ∧
    (msLoad (putLength s).buffer s.comp).W[15] = s.bitlen.extractLsb' 0 32

/-! ## The digest port and the status port -/

/-- DG_SERIALIZE: the eight words big-endian in index order, `H` and all else unchanged (44_digest_output.md R220). -/
def Obligations.SerializeIsBigEndian : Prop :=
  ∀ s : State, ∃ D : Vector Byte 32, dgSerialize s = { s with DG := D } ∧
    ∀ i j (hi : i < 8) (hj : j < 4),
      D[4 * i + j] = ((wordsOf s.H).getD i 0).extractLsb' (24 - 8 * j) 8

/-- The digest port: in FINALIZED `digest[255-8k : 248-8k] = DG[k]`, and, `DG` being the serialisation of `H`,
`digest[255-32i : 224-32i] = H[i]`; in UNINIT and ACTIVE all zeros (44_digest_output.md R221, R222; the form by words is
an inference the spec marks as its own). -/
def Obligations.DigestPortMapping : Prop :=
  ∀ s : State,
    (s.phase = .finalized → ∀ k (h : k < 32), s.digestPort.extractLsb' (248 - 8 * k) 8 = s.DG[k]) ∧
    (s.phase = .finalized → s.DG = serialize s.H →
      ∀ i < 8, s.digestPort.extractLsb' (224 - 32 * i) 32 = (wordsOf s.H).getD i 0) ∧
    (s.phase ≠ .finalized → s.digestPort = 0#256)

/-- The status port: its fields, and the six values that occur (10_state.md R37; that no other value occurs is an
inference the spec marks as its own in 30_encoding.md R102). -/
def Obligations.StatusValues : Prop :=
  ∀ s : State,
    s.status.extractLsb' 0 2 = s.phase.bits ∧ s.status.getLsbD 2 = s.fault ∧
    s.status.getLsbD 3 = decide (s.status.extractLsb' 0 2 = 0b10#2) ∧
    s.status ∈ [0b0000#4, 0b0100#4, 0b0001#4, 0b0101#4, 0b1010#4, 0b1110#4]

/-- The Digest is stable: in FINALIZED, any step but an INIT command or a reset leaves the port, `DG` and the phase as
they are (44_digest_output.md R223). That `H` stays too is an inference the spec marks as its own in
40_context_commands.md R126. -/
def Obligations.DigestIsStable : Prop :=
  ∀ s t : State, s.phase = .finalized → step s = .next t →
    (t.digestPort = s.digestPort ∧ t.DG = s.DG ∧ t.H = s.H ∧ t.phase = .finalized) ∨
    (∃ data rest, s.hostActions = .command 0x1000#16 data :: rest) ∨
    (∃ rest, s.hostActions = .reset :: rest) ∨
    (∃ cw data rest, s.hostActions = .abortedCommand cw data :: rest)

/-! ## Invariants -/

/-- The invariant holds at reset. -/
def Obligations.InvAtReset : Prop := Inv State.reset

/-- Every step keeps the invariant: ready between commands; in ACTIVE `buffer_used < 64` and `buffer_used = total_length
mod 64`; in FINALIZED `DG` serialises `H` (10_state.md R25, R28). That the unit is ready in every state after a
response is log 10; 30_encoding.md R91 has it ready no earlier than the response. -/
def Obligations.StepKeepsInv : Prop := ∀ s t : State, Inv s → step s = .next t → Inv t

/-- What a unit in ACTIVE has absorbed is in its context: INIT starts from the empty message, an UPDATE appends its bytes,
and a refused command and idling change nothing (10_state.md R25, whose clauses on `H` and the held bytes are an inference
the spec marks as its own; 60_exceptions.md R234). -/
def Obligations.AbsorbedBytesAreTracked : Prop :=
  (∀ s t : State, exec .init s = .next t → Absorbed [] t) ∧
  (∀ (s t : State) (x : List Byte) (len : BitVec 7), Absorbed x s → len.toNat ≤ 64 →
    exec (.update len) s = .next t → Absorbed (x ++ beatBytes len.toNat s.cmdData) t) ∧
  (∀ (s t : State) (x : List Byte), Absorbed x s → step s = .next t →
    t.rsp ≠ some .ok → t.phase = .active → Absorbed x t)

/-- Every step keeps this: a unit in ACTIVE shows in its context some message it has absorbed (10_state.md R25, whose
clauses on `H` and the held bytes are an inference the spec marks as its own). -/
def Obligations.StepKeepsAbsorbed : Prop :=
  ∀ s t : State, (s.phase = .active → ∃ x, Absorbed x s) → step s = .next t →
    (t.phase = .active → ∃ x, Absorbed x t)

/-! ## The digest

Where a run of several steps is stated, each command is transferred in the step after the response before it, since the unit
is then ready again (log 10). -/

/-- FINALIZE after absorbing `x`, fewer than 2^61 bytes, gives `SHA256(x)` (40_context_commands.md R132, where it is an
inference the spec marks as its own; the premise is 60_exceptions.md R233). -/
def Obligations.FinalizeGivesSha256 : Prop :=
  ∀ (s : State) (x : List Byte), Absorbed x s → x.length < 2 ^ 61 →
    ∃ t, exec .finalize s = .next t ∧ t.DG = sha256 x ∧ t.phase = .finalized

/-- INIT, any beats, FINALIZE, run by the unit from ANY ready state, whatever it held before: the unit ends in FINALIZED
with `SHA256` of the message in `DG`, OK, and `fault` as it was (40_context_commands.md R132, where it is an inference the
spec marks as its own; 70_reset_and_hazards.md R263). -/
def Obligations.MessageDigestIsSha256 : Prop :=
  ∀ (s : State) (d0 d1 : BitVec 512) (beats : List (BitVec 7 × BitVec 512)) (rest : List HostAction),
    s.cmdReady = true → LegalBeats beats → (messageOf beats).length < 2 ^ 61 →
    s.hostActions = messageActions d0 beats d1 ++ rest →
    ∃ t, runSteps (beats.length + 2) s = .next t ∧ t.DG = sha256 (messageOf beats) ∧ t.phase = .finalized ∧
      t.rsp = some .ok ∧ t.fault = s.fault ∧ t.hostActions = rest

/-- CALCULATE from any ready state: `SHA256(data)` on the port, no fault raised (40_context_commands.md R127;
30_encoding.md R105, R106). That it raises no fault is an inference the spec marks as its own in R127, and that `DG` is
`SHA256` of the message is one it marks in R132; the premise is 60_exceptions.md R233. -/
def Obligations.CalculateGivesSha256 : Prop :=
  ∀ (s : State) (x : List Byte) (rest : List HostAction),
    s.cmdReady = true → x.length < 2 ^ 61 → s.hostActions = calculate x ++ rest →
    ∃ t, runSteps (calculate x).length s = .next t ∧ t.DG = sha256 x ∧ t.digestPort = digestBits (sha256 x) ∧
      t.digestValid = true ∧ t.rsp = some .ok ∧ t.fault = s.fault ∧ t.hostActions = rest

/-- Streaming equivalence and reuse: from any two ready states, two lists of beats that carry the same message, however
they cut it, end with the same `DG` and `H` (40_context_commands.md R128, R129). There is no premise on the length, since
the statement calls no digest SHA-256: for 2^61 bytes or more, where 60_exceptions.md R233 defines no digest, it rests on
the wrap of log 12. -/
def Obligations.StreamingEquivalenceAndReuse : Prop :=
  ∀ (s s' : State) (d0 d1 e0 e1 : BitVec 512) (beats beats' : List (BitVec 7 × BitVec 512)) (rest rest' : List HostAction),
    s.cmdReady = true → s'.cmdReady = true → LegalBeats beats → LegalBeats beats' →
    messageOf beats = messageOf beats' →
    s.hostActions = messageActions d0 beats d1 ++ rest → s'.hostActions = messageActions e0 beats' e1 ++ rest' →
    ∃ t t', runSteps (beats.length + 2) s = .next t ∧ runSteps (beats'.length + 2) s' = .next t' ∧
      t.DG = t'.DG ∧ t.H = t'.H ∧ t.digestPort = t'.digestPort

/-- Determinism and no residue: two ready states that agree on the specified state, with the same host action next, give
the same response and again agree on the specified state, whatever their unspecified registers and stale buffer bytes hold
(40_context_commands.md R130). That stale buffer bytes are never read is an inference the spec marks as its own in
20_memory.md R78. -/
def Obligations.SpecifiedStateDeterminesStep : Prop :=
  ∀ (s s' t : State), Inv s → Inv s' → SameSpecified s s' → s.hostActions = s'.hostActions → step s = .next t →
    ∃ t', step s' = .next t' ∧ SameSpecified t t' ∧ t.hostActions = t'.hostActions
end

