-- ==== Sys2Proof/Laws/Bytes.lean ====
section
/-! SUPPORT. Byte sequences: what storing bytes leaves in a block, lengths, lanes and blocks (20_memory.md R62 to R67). -/

namespace Sys2Proof.Machine

@[simp] theorem bytesBE_length {w : Nat} (n : Nat) (v : BitVec w) : (bytesBE n v).length = n := by simp [bytesBE]

@[simp] theorem bytesBE_one (b : Byte) : bytesBE 1 b = [b] := by simp [bytesBE]

@[simp] theorem beatBytes_length (n : Nat) (data : BitVec 512) : (beatBytes n data).length = n := by simp [beatBytes]

@[simp] theorem beatBytes_zero (data : BitVec 512) : beatBytes 0 data = [] := rfl

theorem beatBytes_getElem {n i : Nat} (data : BitVec 512) (h : i < (beatBytes n data).length) :
    (beatBytes n data)[i] = lane data i := by simp [beatBytes]

/-- Two data inputs that agree on the used lanes carry the same beat (30_encoding.md R100). -/
theorem beatBytes_congr {n : Nat} {d d' : BitVec 512} (h : ∀ i < n, lane d i = lane d' i) :
    beatBytes n d = beatBytes n d' := by
  apply List.map_congr_left
  intro i hi
  exact h i (List.mem_range.mp hi)

theorem memRead1_eq (src : Block) {j : Nat} (h : j < 64) : memRead1 src j = src[j] := by
  simp [memRead1, Vector.getElem?_eq_getElem h]

@[simp] theorem writeBytes_nil (a : Nat) (buf : Block) : writeBytes a [] buf = buf := by unfold writeBytes; rfl

theorem writeBytes_cons (a : Nat) (b : Byte) (bs : List Byte) (buf : Block) :
    writeBytes a (b :: bs) buf = writeBytes (a + 1) bs (buf.setIfInBounds a b) := by
  conv_lhs => unfold writeBytes

/-- Storing at consecutive offsets in two parts is storing at once. -/
theorem writeBytes_append (a : Nat) (bs cs : List Byte) (buf : Block) :
    writeBytes a (bs ++ cs) buf = writeBytes (a + bs.length) cs (writeBytes a bs buf) := by
  induction bs generalizing a buf with
  | nil => simp
  | cons b bs ih => rw [List.cons_append, writeBytes_cons, writeBytes_cons, ih, List.length_cons, Nat.add_right_comm,
      Nat.add_assoc]

/-- What every byte of the block is after a store: the stored byte at the stored offsets, the old byte elsewhere. -/
theorem writeBytes_getElem (a : Nat) (bs : List Byte) (buf : Block) {j : Nat} (hj : j < 64) :
    (writeBytes a bs buf)[j] = if a ≤ j ∧ j < a + bs.length then bs.getD (j - a) 0 else buf[j] := by
  induction bs generalizing a buf with
  | nil =>
    simp only [writeBytes_nil, List.length_nil, Nat.add_zero]
    rw [if_neg (by omega)]
  | cons b bs ih =>
    rw [writeBytes_cons, ih, Vector.getElem_setIfInBounds, List.length_cons]
    by_cases h1 : a = j
    · subst h1
      rw [if_neg (by omega), if_pos rfl, if_pos (by omega)]
      simp
    · by_cases h2 : a + 1 ≤ j ∧ j < a + 1 + bs.length
      · rw [if_pos h2, if_pos (by omega), show j - a = (j - (a + 1)) + 1 by omega]
        simp
      · rw [if_neg h2, if_neg h1, if_neg (by omega)]

/-- The block as a list after a store inside its bounds. -/
theorem writeBytes_toList (a : Nat) (bs : List Byte) (buf : Block) (h : a + bs.length ≤ 64) :
    (writeBytes a bs buf).toList = buf.toList.take a ++ bs ++ buf.toList.drop (a + bs.length) := by
  apply List.ext_getElem
  · simp only [Vector.length_toList, List.length_append, List.length_take, List.length_drop]; omega
  · intro j h1 h2
    have hj : j < 64 := by simpa using h1
    rw [Vector.getElem_toList, writeBytes_getElem a bs buf hj]
    by_cases hlt : j < a
    · rw [if_neg (by omega), List.getElem_append_left (by simp; omega), List.getElem_append_left (by simp; omega)]
      simp
    · by_cases hmid : j < a + bs.length
      · have hl : (List.take a buf.toList).length = a := by simp; omega
        rw [if_pos ⟨by omega, hmid⟩, List.getElem_append_left (by simp; omega),
          List.getElem_append_right (by simp; omega)]
        simp only [hl]
        rw [List.getD_eq_getElem _ _ (by omega)]
      · have hl : (List.take a buf.toList ++ bs).length = a + bs.length := by simp; omega
        rw [if_neg (by omega), List.getElem_append_right (by omega)]
        simp only [hl, List.getElem_drop, Vector.getElem_toList]
        congr 1
        omega

theorem blockOf_getElem (bytes : List Byte) {j : Nat} (hj : j < 64) : (blockOf bytes)[j] = bytes.getD j 0 := by
  unfold blockOf
  simp only [Vector.getElem_mk, List.getElem_toArray, List.getD_eq_getElem?_getD]
  by_cases h : j < bytes.length
  · rw [List.getElem_append_left (by simp; omega)]; simp [h]
  · rw [List.getElem_append_right (by simp; omega)]; simp [h]

/-- A block made of exactly 64 bytes holds those bytes in order. -/
theorem blockOf_toList (bytes : List Byte) (h : 64 ≤ bytes.length) : (blockOf bytes).toList = bytes.take 64 := by
  apply List.ext_getElem
  · simp; omega
  · intro j h1 h2
    have hj : j < 64 := by simpa using h1
    rw [Vector.getElem_toList, blockOf_getElem bytes hj, List.getElem_take, List.getD_eq_getElem _ _ (by omega)]

/-- A block is determined by its bytes in order. -/
theorem block_ext {B C : Block} (h : B.toList = C.toList) : B = C := by
  apply Vector.toList_inj.mp h

theorem blockOf_toList_self (B : Block) : blockOf B.toList = B := by
  apply block_ext
  rw [blockOf_toList _ (by simp)]
  simp

/-- Only the first 64 bytes matter. -/
theorem blockOf_take (bytes : List Byte) (n : Nat) (h : 64 ≤ n) : blockOf (bytes.take n) = blockOf bytes := by
  apply Vector.ext
  intro j hj
  rw [blockOf_getElem _ hj, blockOf_getElem _ hj]
  simp only [List.getD_eq_getElem?_getD, List.getElem?_take]
  rw [if_pos (by omega)]

theorem blockOf_append (bytes more : List Byte) (h : 64 ≤ bytes.length) : blockOf (bytes ++ more) = blockOf bytes := by
  apply Vector.ext
  intro j hj
  rw [blockOf_getElem _ hj, blockOf_getElem _ hj]
  simp only [List.getD_eq_getElem?_getD]
  rw [List.getElem?_append_left (by omega)]

theorem beatBytes_getD (n i : Nat) (data : BitVec 512) (h : i < n) : (beatBytes n data).getD i 0 = lane data i := by
  rw [List.getD_eq_getElem _ _ (by simpa using h), beatBytes_getElem]

/-- The first lanes of a beat. -/
theorem beatBytes_take (n k : Nat) (data : BitVec 512) (h : k ≤ n) : (beatBytes n data).take k = beatBytes k data := by
  simp [beatBytes, ← List.map_take, List.take_range, h]

/-- Byte `i` of `bytes_be(v, n)` (00_scope.md section 6.3). -/
theorem bytesBE_getD {w : Nat} (n i : Nat) (v : BitVec w) (h : i < n) : (bytesBE n v).getD i 0 =
    v.extractLsb' (8 * (n - 1 - i)) 8 := by
  rw [List.getD_eq_getElem _ _ (by simpa using h)]; simp [bytesBE]

/-- `be32` as a sum of its bytes (00_scope.md section 6.3). -/
theorem be32_toNat (a b c d : Byte) : (be32 a b c d).toNat = a.toNat * 2 ^ 24 + b.toNat * 2 ^ 16 + c.toNat * 2 ^ 8 + d.toNat := by
  have := a.isLt; have := b.isLt; have := c.isLt; have := d.isLt
  simp only [be32, BitVec.toNat_append, Nat.shiftLeft_eq]
  rw [← Nat.shiftLeft_eq, ← Nat.shiftLeft_eq, ← Nat.shiftLeft_eq, ← Nat.shiftLeft_add_eq_or_of_lt (by omega),
      ← Nat.shiftLeft_add_eq_or_of_lt (by omega), ← Nat.shiftLeft_add_eq_or_of_lt (by omega)]
  simp only [Nat.shiftLeft_eq]; omega

/-- Reading four bytes that are the big-endian bytes of a word gives the word. -/
theorem memRead4_eq (src : Block) (v : Word) (a : Nat) (ha : a + 3 < 64)
   (h : ∀ i (hi : i < 4), src[a + i] = v.extractLsb' (8 * (3 - i)) 8) : memRead4 src a = v := by
  rw [memRead4, memRead1_eq _ (by omega), memRead1_eq _ (by omega), memRead1_eq _ (by omega), memRead1_eq _ (by omega)]
  have h0 := h 0 (by omega); have h1 := h 1 (by omega); have h2 := h 2 (by omega); have h3 := h 3 (by omega)
  simp only [Nat.add_zero] at h0
  rw [h0, h1, h2, h3, be32]
  apply BitVec.eq_of_getLsbD_eq
  intro i hi
  simp only [BitVec.getLsbD_append, BitVec.getLsbD_extractLsb']
  by_cases c1 : i < 8
  · simp [c1]
  · by_cases c2 : i - 8 < 8
    · simp [c1, c2]; congr 1; omega
    · by_cases c3 : i - 8 - 8 < 8
      · simp [c1, c2, c3]; congr 1; omega
      · simp [c1, c2, c3, show i - 8 - 8 - 8 < 8 by omega]; congr 1; omega

theorem packLanes_fold (l : List Byte) (n k : Nat) (hk : k < n) (hn : n ≤ 64) :
   ((List.range n).foldl (fun (acc : BitVec 512) i => acc <<< 8 ||| (l.getD i 0).setWidth 512) 0).extractLsb' (8 * (n - 1 - k)) 8 = l.getD k 0 := by
  induction n with
  | zero => omega
  | succ n ih =>
    rw [List.range_succ, List.foldl_append, List.foldl_cons, List.foldl_nil]
    by_cases h : k < n
    · rw [← ih h (by omega)]
      apply BitVec.eq_of_getLsbD_eq; intro i hi
      rw [BitVec.getLsbD_extractLsb', BitVec.getLsbD_extractLsb', BitVec.getLsbD_or, BitVec.getLsbD_shiftLeft,
          BitVec.getLsbD_setWidth,
        BitVec.getLsbD_of_ge (l.getD n 0) _ (by omega)]
      simp only [hi, show ¬ (8 * (n + 1 - 1 - k) + i < 8) by omega, show 8 * (n + 1 - 1 - k) + i < 512 by omega,
          show 8 * (n + 1 - 1 - k) + i - 8 = 8 * (n - 1 - k) + i by omega]
      simp
    · have : k = n := by omega
      subst this
      apply BitVec.eq_of_getLsbD_eq; intro i hi
      rw [BitVec.getLsbD_extractLsb', BitVec.getLsbD_or, BitVec.getLsbD_shiftLeft, BitVec.getLsbD_setWidth]
      simp [hi]
      intro h; omega

/-- The lanes of packed bytes are those bytes (20_memory.md R67). -/
theorem lane_packLanes (l : List Byte) (k : Nat) (hk : k < 64) : lane (packLanes l) k = l.getD k 0 := by
  unfold packLanes lane
  have := packLanes_fold l 64 k hk le_rfl
  rw [show 8 * (64 - 1 - k) = 504 - 8 * k by omega] at this
  exact this

/-- A beat packed from at most 64 bytes carries those bytes. -/
theorem beatBytes_packLanes (l : List Byte) (h : l.length ≤ 64) : beatBytes l.length (packLanes l) = l := by
  apply List.ext_getElem
  · simp
  · intro i h1 h2
    rw [beatBytes_getElem, lane_packLanes _ _ (by omega), List.getD_eq_getElem _ _ h2]

end Sys2Proof.Machine
end

