-- ==== Sys2Proof/Laws/State.lean ====
section
/-! SUPPORT. One lemma per field per elementary update of the state, each true by unfolding once: what the update writes, and
what it leaves. Later proofs cite these and do not unfold a record update. -/

namespace Sys2Proof.Machine

/-! ### respond -/

@[simp] theorem respond_H (code : RspCode) (s : State) : (respond code s).H = s.H := rfl
@[simp] theorem respond_totalLength (code : RspCode) (s : State) : (respond code s).totalLength = s.totalLength := rfl
@[simp] theorem respond_buffer (code : RspCode) (s : State) : (respond code s).buffer = s.buffer := rfl
@[simp] theorem respond_bufferUsed (code : RspCode) (s : State) : (respond code s).bufferUsed = s.bufferUsed := rfl
@[simp] theorem respond_phase (code : RspCode) (s : State) : (respond code s).phase = s.phase := rfl
@[simp] theorem respond_fault (code : RspCode) (s : State) : (respond code s).fault = s.fault := rfl
@[simp] theorem respond_DG (code : RspCode) (s : State) : (respond code s).DG = s.DG := rfl
@[simp] theorem respond_comp (code : RspCode) (s : State) : (respond code s).comp = s.comp := rfl
@[simp] theorem respond_bitlen (code : RspCode) (s : State) : (respond code s).bitlen = s.bitlen := rfl
@[simp] theorem respond_pos (code : RspCode) (s : State) : (respond code s).pos = s.pos := rfl
@[simp] theorem respond_cmdReady (code : RspCode) (s : State) : (respond code s).cmdReady = true := rfl
@[simp] theorem respond_cmdWord (code : RspCode) (s : State) : (respond code s).cmdWord = s.cmdWord := rfl
@[simp] theorem respond_cmdData (code : RspCode) (s : State) : (respond code s).cmdData = s.cmdData := rfl
@[simp] theorem respond_rsp (code : RspCode) (s : State) : (respond code s).rsp = some code := rfl
@[simp] theorem respond_hostActions (code : RspCode) (s : State) : (respond code s).hostActions = s.hostActions := rfl
@[simp] theorem respond_freeDraws (code : RspCode) (s : State) : (respond code s).freeDraws = s.freeDraws := rfl

/-! ### raise -/

@[simp] theorem raise_H (cause : FaultCause) (s : State) : (raise cause s).H = s.H := rfl
@[simp] theorem raise_totalLength (cause : FaultCause) (s : State) : (raise cause s).totalLength = s.totalLength := rfl
@[simp] theorem raise_buffer (cause : FaultCause) (s : State) : (raise cause s).buffer = s.buffer := rfl
@[simp] theorem raise_bufferUsed (cause : FaultCause) (s : State) : (raise cause s).bufferUsed = s.bufferUsed := rfl
@[simp] theorem raise_phase (cause : FaultCause) (s : State) : (raise cause s).phase = s.phase := rfl
@[simp] theorem raise_fault (cause : FaultCause) (s : State) : (raise cause s).fault = true := rfl
@[simp] theorem raise_DG (cause : FaultCause) (s : State) : (raise cause s).DG = s.DG := rfl
@[simp] theorem raise_comp (cause : FaultCause) (s : State) : (raise cause s).comp = s.comp := rfl
@[simp] theorem raise_bitlen (cause : FaultCause) (s : State) : (raise cause s).bitlen = s.bitlen := rfl
@[simp] theorem raise_pos (cause : FaultCause) (s : State) : (raise cause s).pos = s.pos := rfl
@[simp] theorem raise_cmdReady (cause : FaultCause) (s : State) : (raise cause s).cmdReady = true := rfl
@[simp] theorem raise_cmdWord (cause : FaultCause) (s : State) : (raise cause s).cmdWord = s.cmdWord := rfl
@[simp] theorem raise_cmdData (cause : FaultCause) (s : State) : (raise cause s).cmdData = s.cmdData := rfl
@[simp] theorem raise_rsp (cause : FaultCause) (s : State) : (raise cause s).rsp = some cause.code := rfl
@[simp] theorem raise_hostActions (cause : FaultCause) (s : State) : (raise cause s).hostActions = s.hostActions := rfl
@[simp] theorem raise_freeDraws (cause : FaultCause) (s : State) : (raise cause s).freeDraws = s.freeDraws := rfl

/-! ### idle -/

@[simp] theorem idle_H (s : State) : (idle s).H = s.H := rfl
@[simp] theorem idle_totalLength (s : State) : (idle s).totalLength = s.totalLength := rfl
@[simp] theorem idle_buffer (s : State) : (idle s).buffer = s.buffer := rfl
@[simp] theorem idle_bufferUsed (s : State) : (idle s).bufferUsed = s.bufferUsed := rfl
@[simp] theorem idle_phase (s : State) : (idle s).phase = s.phase := rfl
@[simp] theorem idle_fault (s : State) : (idle s).fault = s.fault := rfl
@[simp] theorem idle_DG (s : State) : (idle s).DG = s.DG := rfl
@[simp] theorem idle_comp (s : State) : (idle s).comp = s.comp := rfl
@[simp] theorem idle_bitlen (s : State) : (idle s).bitlen = s.bitlen := rfl
@[simp] theorem idle_pos (s : State) : (idle s).pos = s.pos := rfl
@[simp] theorem idle_cmdReady (s : State) : (idle s).cmdReady = s.cmdReady := rfl
@[simp] theorem idle_cmdWord (s : State) : (idle s).cmdWord = s.cmdWord := rfl
@[simp] theorem idle_cmdData (s : State) : (idle s).cmdData = s.cmdData := rfl
@[simp] theorem idle_rsp (s : State) : (idle s).rsp = none := rfl
@[simp] theorem idle_hostActions (s : State) : (idle s).hostActions = s.hostActions := rfl
@[simp] theorem idle_freeDraws (s : State) : (idle s).freeDraws = s.freeDraws := rfl

/-! ### transfer -/

@[simp] theorem transfer_H (word : BitVec 16) (data : BitVec 512) (s : State) : (transfer word data s).H = s.H := rfl
@[simp] theorem transfer_totalLength (word : BitVec 16) (data : BitVec 512) (s : State) :
    (transfer word data s).totalLength = s.totalLength := rfl
@[simp] theorem transfer_buffer (word : BitVec 16) (data : BitVec 512) (s : State) :
    (transfer word data s).buffer = s.buffer := rfl
@[simp] theorem transfer_bufferUsed (word : BitVec 16) (data : BitVec 512) (s : State) :
    (transfer word data s).bufferUsed = s.bufferUsed := rfl
@[simp] theorem transfer_phase (word : BitVec 16) (data : BitVec 512) (s : State) :
    (transfer word data s).phase = s.phase := rfl
@[simp] theorem transfer_fault (word : BitVec 16) (data : BitVec 512) (s : State) :
    (transfer word data s).fault = s.fault := rfl
@[simp] theorem transfer_DG (word : BitVec 16) (data : BitVec 512) (s : State) : (transfer word data s).DG = s.DG := rfl
@[simp] theorem transfer_comp (word : BitVec 16) (data : BitVec 512) (s : State) :
    (transfer word data s).comp = s.comp := rfl
@[simp] theorem transfer_bitlen (word : BitVec 16) (data : BitVec 512) (s : State) :
    (transfer word data s).bitlen = s.bitlen := rfl
@[simp] theorem transfer_pos (word : BitVec 16) (data : BitVec 512) (s : State) : (transfer word data s).pos = s.pos :=
    rfl
@[simp] theorem transfer_cmdReady (word : BitVec 16) (data : BitVec 512) (s : State) :
    (transfer word data s).cmdReady = false := rfl
@[simp] theorem transfer_cmdWord (word : BitVec 16) (data : BitVec 512) (s : State) :
    (transfer word data s).cmdWord = word := rfl
@[simp] theorem transfer_cmdData (word : BitVec 16) (data : BitVec 512) (s : State) :
    (transfer word data s).cmdData = data := rfl
@[simp] theorem transfer_rsp (word : BitVec 16) (data : BitVec 512) (s : State) : (transfer word data s).rsp = none :=
    rfl
@[simp] theorem transfer_hostActions (word : BitVec 16) (data : BitVec 512) (s : State) :
    (transfer word data s).hostActions = s.hostActions := rfl
@[simp] theorem transfer_freeDraws (word : BitVec 16) (data : BitVec 512) (s : State) :
    (transfer word data s).freeDraws = s.freeDraws := rfl

/-! ### resetEvent -/

@[simp] theorem resetEvent_H (s : State) : (resetEvent s).H = Config.freeH s.freeDraws := rfl
@[simp] theorem resetEvent_totalLength (s : State) : (resetEvent s).totalLength = Config.freeTotalLength s.freeDraws :=
    rfl
@[simp] theorem resetEvent_buffer (s : State) : (resetEvent s).buffer = Config.freeBuffer s.freeDraws := rfl
@[simp] theorem resetEvent_bufferUsed (s : State) : (resetEvent s).bufferUsed = Config.freeBufferUsed s.freeDraws := rfl
@[simp] theorem resetEvent_phase (s : State) : (resetEvent s).phase = .uninit := rfl
@[simp] theorem resetEvent_fault (s : State) : (resetEvent s).fault = false := rfl
@[simp] theorem resetEvent_DG (s : State) : (resetEvent s).DG = Config.freeDG s.freeDraws := rfl
@[simp] theorem resetEvent_comp (s : State) : (resetEvent s).comp = freeCompressor s.freeDraws := rfl
@[simp] theorem resetEvent_bitlen (s : State) : (resetEvent s).bitlen = Config.freeBitlen s.freeDraws := rfl
@[simp] theorem resetEvent_pos (s : State) : (resetEvent s).pos = Config.freePos s.freeDraws := rfl
@[simp] theorem resetEvent_cmdReady (s : State) : (resetEvent s).cmdReady = true := rfl
@[simp] theorem resetEvent_cmdWord (s : State) : (resetEvent s).cmdWord = s.cmdWord := rfl
@[simp] theorem resetEvent_cmdData (s : State) : (resetEvent s).cmdData = s.cmdData := rfl
@[simp] theorem resetEvent_rsp (s : State) : (resetEvent s).rsp = none := rfl
@[simp] theorem resetEvent_hostActions (s : State) : (resetEvent s).hostActions = s.hostActions := rfl
@[simp] theorem resetEvent_freeDraws (s : State) : (resetEvent s).freeDraws = s.freeDraws + 1 := rfl

/-! ### releaseContext -/

@[simp] theorem releaseContext_H (s : State) : (releaseContext s).H = s.H := rfl
@[simp] theorem releaseContext_totalLength (s : State) :
    (releaseContext s).totalLength = Config.freeTotalLength s.freeDraws := rfl
@[simp] theorem releaseContext_buffer (s : State) : (releaseContext s).buffer = Config.freeBuffer s.freeDraws := rfl
@[simp] theorem releaseContext_bufferUsed (s : State) :
    (releaseContext s).bufferUsed = Config.freeBufferUsed s.freeDraws := rfl
@[simp] theorem releaseContext_phase (s : State) : (releaseContext s).phase = s.phase := rfl
@[simp] theorem releaseContext_fault (s : State) : (releaseContext s).fault = s.fault := rfl
@[simp] theorem releaseContext_DG (s : State) : (releaseContext s).DG = s.DG := rfl
@[simp] theorem releaseContext_comp (s : State) : (releaseContext s).comp = freeCompressor s.freeDraws := rfl
@[simp] theorem releaseContext_bitlen (s : State) : (releaseContext s).bitlen = Config.freeBitlen s.freeDraws := rfl
@[simp] theorem releaseContext_pos (s : State) : (releaseContext s).pos = Config.freePos s.freeDraws := rfl
@[simp] theorem releaseContext_cmdReady (s : State) : (releaseContext s).cmdReady = s.cmdReady := rfl
@[simp] theorem releaseContext_cmdWord (s : State) : (releaseContext s).cmdWord = s.cmdWord := rfl
@[simp] theorem releaseContext_cmdData (s : State) : (releaseContext s).cmdData = s.cmdData := rfl
@[simp] theorem releaseContext_rsp (s : State) : (releaseContext s).rsp = s.rsp := rfl
@[simp] theorem releaseContext_hostActions (s : State) : (releaseContext s).hostActions = s.hostActions := rfl
@[simp] theorem releaseContext_freeDraws (s : State) : (releaseContext s).freeDraws = s.freeDraws + 1 := rfl

/-! ### memWrite -/

@[simp] theorem memWrite_H {w : Nat} (addr n : Nat) (v : BitVec w) (s : State) : (memWrite addr n v s).H = s.H := rfl
@[simp] theorem memWrite_totalLength {w : Nat} (addr n : Nat) (v : BitVec w) (s : State) :
    (memWrite addr n v s).totalLength = s.totalLength := rfl
@[simp] theorem memWrite_buffer {w : Nat} (addr n : Nat) (v : BitVec w) (s : State) :
    (memWrite addr n v s).buffer = writeBytes addr (bytesBE n v) s.buffer := rfl
@[simp] theorem memWrite_bufferUsed {w : Nat} (addr n : Nat) (v : BitVec w) (s : State) :
    (memWrite addr n v s).bufferUsed = s.bufferUsed := rfl
@[simp] theorem memWrite_phase {w : Nat} (addr n : Nat) (v : BitVec w) (s : State) :
    (memWrite addr n v s).phase = s.phase := rfl
@[simp] theorem memWrite_fault {w : Nat} (addr n : Nat) (v : BitVec w) (s : State) :
    (memWrite addr n v s).fault = s.fault := rfl
@[simp] theorem memWrite_DG {w : Nat} (addr n : Nat) (v : BitVec w) (s : State) : (memWrite addr n v s).DG = s.DG := rfl
@[simp] theorem memWrite_comp {w : Nat} (addr n : Nat) (v : BitVec w) (s : State) :
    (memWrite addr n v s).comp = s.comp := rfl
@[simp] theorem memWrite_bitlen {w : Nat} (addr n : Nat) (v : BitVec w) (s : State) :
    (memWrite addr n v s).bitlen = s.bitlen := rfl
@[simp] theorem memWrite_pos {w : Nat} (addr n : Nat) (v : BitVec w) (s : State) : (memWrite addr n v s).pos = s.pos :=
    rfl
@[simp] theorem memWrite_cmdReady {w : Nat} (addr n : Nat) (v : BitVec w) (s : State) :
    (memWrite addr n v s).cmdReady = s.cmdReady := rfl
@[simp] theorem memWrite_cmdWord {w : Nat} (addr n : Nat) (v : BitVec w) (s : State) :
    (memWrite addr n v s).cmdWord = s.cmdWord := rfl
@[simp] theorem memWrite_cmdData {w : Nat} (addr n : Nat) (v : BitVec w) (s : State) :
    (memWrite addr n v s).cmdData = s.cmdData := rfl
@[simp] theorem memWrite_rsp {w : Nat} (addr n : Nat) (v : BitVec w) (s : State) : (memWrite addr n v s).rsp = s.rsp :=
    rfl
@[simp] theorem memWrite_hostActions {w : Nat} (addr n : Nat) (v : BitVec w) (s : State) :
    (memWrite addr n v s).hostActions = s.hostActions := rfl
@[simp] theorem memWrite_freeDraws {w : Nat} (addr n : Nat) (v : BitVec w) (s : State) :
    (memWrite addr n v s).freeDraws = s.freeDraws := rfl

/-! ### bufPut -/

@[simp] theorem bufPut_H (b : Byte) (s : State) : (bufPut b s).H = s.H := rfl
@[simp] theorem bufPut_totalLength (b : Byte) (s : State) : (bufPut b s).totalLength = s.totalLength := rfl
@[simp] theorem bufPut_buffer (b : Byte) (s : State) :
    (bufPut b s).buffer = writeBytes s.bufferUsed.toNat (bytesBE 1 b) s.buffer := rfl
@[simp] theorem bufPut_bufferUsed (b : Byte) (s : State) : (bufPut b s).bufferUsed = s.bufferUsed + 1 := rfl
@[simp] theorem bufPut_phase (b : Byte) (s : State) : (bufPut b s).phase = s.phase := rfl
@[simp] theorem bufPut_fault (b : Byte) (s : State) : (bufPut b s).fault = s.fault := rfl
@[simp] theorem bufPut_DG (b : Byte) (s : State) : (bufPut b s).DG = s.DG := rfl
@[simp] theorem bufPut_comp (b : Byte) (s : State) : (bufPut b s).comp = s.comp := rfl
@[simp] theorem bufPut_bitlen (b : Byte) (s : State) : (bufPut b s).bitlen = s.bitlen := rfl
@[simp] theorem bufPut_pos (b : Byte) (s : State) : (bufPut b s).pos = s.pos := rfl
@[simp] theorem bufPut_cmdReady (b : Byte) (s : State) : (bufPut b s).cmdReady = s.cmdReady := rfl
@[simp] theorem bufPut_cmdWord (b : Byte) (s : State) : (bufPut b s).cmdWord = s.cmdWord := rfl
@[simp] theorem bufPut_cmdData (b : Byte) (s : State) : (bufPut b s).cmdData = s.cmdData := rfl
@[simp] theorem bufPut_rsp (b : Byte) (s : State) : (bufPut b s).rsp = s.rsp := rfl
@[simp] theorem bufPut_hostActions (b : Byte) (s : State) : (bufPut b s).hostActions = s.hostActions := rfl
@[simp] theorem bufPut_freeDraws (b : Byte) (s : State) : (bufPut b s).freeDraws = s.freeDraws := rfl

/-! ### lenAdd -/

@[simp] theorem lenAdd_H (n : Nat) (s : State) : (lenAdd n s).H = s.H := rfl
@[simp] theorem lenAdd_totalLength (n : Nat) (s : State) :
    (lenAdd n s).totalLength = s.totalLength + BitVec.ofNat 64 n := rfl
@[simp] theorem lenAdd_buffer (n : Nat) (s : State) : (lenAdd n s).buffer = s.buffer := rfl
@[simp] theorem lenAdd_bufferUsed (n : Nat) (s : State) : (lenAdd n s).bufferUsed = s.bufferUsed := rfl
@[simp] theorem lenAdd_phase (n : Nat) (s : State) : (lenAdd n s).phase = s.phase := rfl
@[simp] theorem lenAdd_fault (n : Nat) (s : State) : (lenAdd n s).fault = s.fault := rfl
@[simp] theorem lenAdd_DG (n : Nat) (s : State) : (lenAdd n s).DG = s.DG := rfl
@[simp] theorem lenAdd_comp (n : Nat) (s : State) : (lenAdd n s).comp = s.comp := rfl
@[simp] theorem lenAdd_bitlen (n : Nat) (s : State) : (lenAdd n s).bitlen = s.bitlen := rfl
@[simp] theorem lenAdd_pos (n : Nat) (s : State) : (lenAdd n s).pos = s.pos := rfl
@[simp] theorem lenAdd_cmdReady (n : Nat) (s : State) : (lenAdd n s).cmdReady = s.cmdReady := rfl
@[simp] theorem lenAdd_cmdWord (n : Nat) (s : State) : (lenAdd n s).cmdWord = s.cmdWord := rfl
@[simp] theorem lenAdd_cmdData (n : Nat) (s : State) : (lenAdd n s).cmdData = s.cmdData := rfl
@[simp] theorem lenAdd_rsp (n : Nat) (s : State) : (lenAdd n s).rsp = s.rsp := rfl
@[simp] theorem lenAdd_hostActions (n : Nat) (s : State) : (lenAdd n s).hostActions = s.hostActions := rfl
@[simp] theorem lenAdd_freeDraws (n : Nat) (s : State) : (lenAdd n s).freeDraws = s.freeDraws := rfl

/-! ### padLatch -/

@[simp] theorem padLatch_H (s : State) : (padLatch s).H = s.H := rfl
@[simp] theorem padLatch_totalLength (s : State) : (padLatch s).totalLength = s.totalLength := rfl
@[simp] theorem padLatch_buffer (s : State) : (padLatch s).buffer = s.buffer := rfl
@[simp] theorem padLatch_bufferUsed (s : State) : (padLatch s).bufferUsed = s.bufferUsed := rfl
@[simp] theorem padLatch_phase (s : State) : (padLatch s).phase = s.phase := rfl
@[simp] theorem padLatch_fault (s : State) : (padLatch s).fault = s.fault := rfl
@[simp] theorem padLatch_DG (s : State) : (padLatch s).DG = s.DG := rfl
@[simp] theorem padLatch_comp (s : State) : (padLatch s).comp = s.comp := rfl
@[simp] theorem padLatch_bitlen (s : State) : (padLatch s).bitlen = s.totalLength <<< 3 := rfl
@[simp] theorem padLatch_pos (s : State) : (padLatch s).pos = s.pos := rfl
@[simp] theorem padLatch_cmdReady (s : State) : (padLatch s).cmdReady = s.cmdReady := rfl
@[simp] theorem padLatch_cmdWord (s : State) : (padLatch s).cmdWord = s.cmdWord := rfl
@[simp] theorem padLatch_cmdData (s : State) : (padLatch s).cmdData = s.cmdData := rfl
@[simp] theorem padLatch_rsp (s : State) : (padLatch s).rsp = s.rsp := rfl
@[simp] theorem padLatch_hostActions (s : State) : (padLatch s).hostActions = s.hostActions := rfl
@[simp] theorem padLatch_freeDraws (s : State) : (padLatch s).freeDraws = s.freeDraws := rfl

/-! ### putLength -/

@[simp] theorem putLength_H (s : State) : (putLength s).H = s.H := rfl
@[simp] theorem putLength_totalLength (s : State) : (putLength s).totalLength = s.totalLength := rfl
@[simp] theorem putLength_buffer (s : State) : (putLength s).buffer = writeBytes 56 (bytesBE 8 s.bitlen) s.buffer := rfl
@[simp] theorem putLength_bufferUsed (s : State) : (putLength s).bufferUsed = 64 := rfl
@[simp] theorem putLength_phase (s : State) : (putLength s).phase = s.phase := rfl
@[simp] theorem putLength_fault (s : State) : (putLength s).fault = s.fault := rfl
@[simp] theorem putLength_DG (s : State) : (putLength s).DG = s.DG := rfl
@[simp] theorem putLength_comp (s : State) : (putLength s).comp = s.comp := rfl
@[simp] theorem putLength_bitlen (s : State) : (putLength s).bitlen = s.bitlen := rfl
@[simp] theorem putLength_pos (s : State) : (putLength s).pos = s.pos := rfl
@[simp] theorem putLength_cmdReady (s : State) : (putLength s).cmdReady = s.cmdReady := rfl
@[simp] theorem putLength_cmdWord (s : State) : (putLength s).cmdWord = s.cmdWord := rfl
@[simp] theorem putLength_cmdData (s : State) : (putLength s).cmdData = s.cmdData := rfl
@[simp] theorem putLength_rsp (s : State) : (putLength s).rsp = s.rsp := rfl
@[simp] theorem putLength_hostActions (s : State) : (putLength s).hostActions = s.hostActions := rfl
@[simp] theorem putLength_freeDraws (s : State) : (putLength s).freeDraws = s.freeDraws := rfl

/-! ### dgSerialize -/

@[simp] theorem dgSerialize_H (s : State) : (dgSerialize s).H = s.H := rfl
@[simp] theorem dgSerialize_totalLength (s : State) : (dgSerialize s).totalLength = s.totalLength := rfl
@[simp] theorem dgSerialize_buffer (s : State) : (dgSerialize s).buffer = s.buffer := rfl
@[simp] theorem dgSerialize_bufferUsed (s : State) : (dgSerialize s).bufferUsed = s.bufferUsed := rfl
@[simp] theorem dgSerialize_phase (s : State) : (dgSerialize s).phase = s.phase := rfl
@[simp] theorem dgSerialize_fault (s : State) : (dgSerialize s).fault = s.fault := rfl
@[simp] theorem dgSerialize_DG (s : State) : (dgSerialize s).DG = serialize s.H := rfl
@[simp] theorem dgSerialize_comp (s : State) : (dgSerialize s).comp = s.comp := rfl
@[simp] theorem dgSerialize_bitlen (s : State) : (dgSerialize s).bitlen = s.bitlen := rfl
@[simp] theorem dgSerialize_pos (s : State) : (dgSerialize s).pos = s.pos := rfl
@[simp] theorem dgSerialize_cmdReady (s : State) : (dgSerialize s).cmdReady = s.cmdReady := rfl
@[simp] theorem dgSerialize_cmdWord (s : State) : (dgSerialize s).cmdWord = s.cmdWord := rfl
@[simp] theorem dgSerialize_cmdData (s : State) : (dgSerialize s).cmdData = s.cmdData := rfl
@[simp] theorem dgSerialize_rsp (s : State) : (dgSerialize s).rsp = s.rsp := rfl
@[simp] theorem dgSerialize_hostActions (s : State) : (dgSerialize s).hostActions = s.hostActions := rfl
@[simp] theorem dgSerialize_freeDraws (s : State) : (dgSerialize s).freeDraws = s.freeDraws := rfl

/-! ### cuAddback -/

@[simp] theorem cuAddback_H (s : State) : (cuAddback s).H = addBack s.H s.comp.vars := rfl
@[simp] theorem cuAddback_totalLength (s : State) : (cuAddback s).totalLength = s.totalLength := rfl
@[simp] theorem cuAddback_buffer (s : State) : (cuAddback s).buffer = s.buffer := rfl
@[simp] theorem cuAddback_bufferUsed (s : State) : (cuAddback s).bufferUsed = s.bufferUsed := rfl
@[simp] theorem cuAddback_phase (s : State) : (cuAddback s).phase = s.phase := rfl
@[simp] theorem cuAddback_fault (s : State) : (cuAddback s).fault = s.fault := rfl
@[simp] theorem cuAddback_DG (s : State) : (cuAddback s).DG = s.DG := rfl
@[simp] theorem cuAddback_comp (s : State) : (cuAddback s).comp = s.comp := rfl
@[simp] theorem cuAddback_bitlen (s : State) : (cuAddback s).bitlen = s.bitlen := rfl
@[simp] theorem cuAddback_pos (s : State) : (cuAddback s).pos = s.pos := rfl
@[simp] theorem cuAddback_cmdReady (s : State) : (cuAddback s).cmdReady = s.cmdReady := rfl
@[simp] theorem cuAddback_cmdWord (s : State) : (cuAddback s).cmdWord = s.cmdWord := rfl
@[simp] theorem cuAddback_cmdData (s : State) : (cuAddback s).cmdData = s.cmdData := rfl
@[simp] theorem cuAddback_rsp (s : State) : (cuAddback s).rsp = s.rsp := rfl
@[simp] theorem cuAddback_hostActions (s : State) : (cuAddback s).hostActions = s.hostActions := rfl
@[simp] theorem cuAddback_freeDraws (s : State) : (cuAddback s).freeDraws = s.freeDraws := rfl

/-! ### compressBlock -/

@[simp] theorem compressBlock_H (B : Block) (s : State) :
    (compressBlock B s).H = addBack s.H (runCompressor B s.H s.comp).vars := rfl
@[simp] theorem compressBlock_totalLength (B : Block) (s : State) : (compressBlock B s).totalLength = s.totalLength :=
    rfl
@[simp] theorem compressBlock_buffer (B : Block) (s : State) : (compressBlock B s).buffer = s.buffer := rfl
@[simp] theorem compressBlock_bufferUsed (B : Block) (s : State) : (compressBlock B s).bufferUsed = s.bufferUsed := rfl
@[simp] theorem compressBlock_phase (B : Block) (s : State) : (compressBlock B s).phase = s.phase := rfl
@[simp] theorem compressBlock_fault (B : Block) (s : State) : (compressBlock B s).fault = s.fault := rfl
@[simp] theorem compressBlock_DG (B : Block) (s : State) : (compressBlock B s).DG = s.DG := rfl
@[simp] theorem compressBlock_comp (B : Block) (s : State) : (compressBlock B s).comp = runCompressor B s.H s.comp :=
    rfl
@[simp] theorem compressBlock_bitlen (B : Block) (s : State) : (compressBlock B s).bitlen = s.bitlen := rfl
@[simp] theorem compressBlock_pos (B : Block) (s : State) : (compressBlock B s).pos = s.pos := rfl
@[simp] theorem compressBlock_cmdReady (B : Block) (s : State) : (compressBlock B s).cmdReady = s.cmdReady := rfl
@[simp] theorem compressBlock_cmdWord (B : Block) (s : State) : (compressBlock B s).cmdWord = s.cmdWord := rfl
@[simp] theorem compressBlock_cmdData (B : Block) (s : State) : (compressBlock B s).cmdData = s.cmdData := rfl
@[simp] theorem compressBlock_rsp (B : Block) (s : State) : (compressBlock B s).rsp = s.rsp := rfl
@[simp] theorem compressBlock_hostActions (B : Block) (s : State) : (compressBlock B s).hostActions = s.hostActions :=
    rfl
@[simp] theorem compressBlock_freeDraws (B : Block) (s : State) : (compressBlock B s).freeDraws = s.freeDraws := rfl

/-! ### bufFlush -/

@[simp] theorem bufFlush_H (s : State) : (bufFlush s).H = addBack s.H (runCompressor s.buffer s.H s.comp).vars := rfl
@[simp] theorem bufFlush_totalLength (s : State) : (bufFlush s).totalLength = s.totalLength := rfl
@[simp] theorem bufFlush_buffer (s : State) : (bufFlush s).buffer = s.buffer := rfl
@[simp] theorem bufFlush_bufferUsed (s : State) : (bufFlush s).bufferUsed = 0 := rfl
@[simp] theorem bufFlush_phase (s : State) : (bufFlush s).phase = s.phase := rfl
@[simp] theorem bufFlush_fault (s : State) : (bufFlush s).fault = s.fault := rfl
@[simp] theorem bufFlush_DG (s : State) : (bufFlush s).DG = s.DG := rfl
@[simp] theorem bufFlush_comp (s : State) : (bufFlush s).comp = runCompressor s.buffer s.H s.comp := rfl
@[simp] theorem bufFlush_bitlen (s : State) : (bufFlush s).bitlen = s.bitlen := rfl
@[simp] theorem bufFlush_pos (s : State) : (bufFlush s).pos = s.pos := rfl
@[simp] theorem bufFlush_cmdReady (s : State) : (bufFlush s).cmdReady = s.cmdReady := rfl
@[simp] theorem bufFlush_cmdWord (s : State) : (bufFlush s).cmdWord = s.cmdWord := rfl
@[simp] theorem bufFlush_cmdData (s : State) : (bufFlush s).cmdData = s.cmdData := rfl
@[simp] theorem bufFlush_rsp (s : State) : (bufFlush s).rsp = s.rsp := rfl
@[simp] theorem bufFlush_hostActions (s : State) : (bufFlush s).hostActions = s.hostActions := rfl
@[simp] theorem bufFlush_freeDraws (s : State) : (bufFlush s).freeDraws = s.freeDraws := rfl

/-! ### blkDirect -/

@[simp] theorem blkDirect_H (B : Block) (s : State) :
    (blkDirect B s).H = addBack s.H (runCompressor B s.H s.comp).vars := rfl
@[simp] theorem blkDirect_totalLength (B : Block) (s : State) : (blkDirect B s).totalLength = s.totalLength := rfl
@[simp] theorem blkDirect_buffer (B : Block) (s : State) : (blkDirect B s).buffer = s.buffer := rfl
@[simp] theorem blkDirect_bufferUsed (B : Block) (s : State) : (blkDirect B s).bufferUsed = s.bufferUsed := rfl
@[simp] theorem blkDirect_phase (B : Block) (s : State) : (blkDirect B s).phase = s.phase := rfl
@[simp] theorem blkDirect_fault (B : Block) (s : State) : (blkDirect B s).fault = s.fault := rfl
@[simp] theorem blkDirect_DG (B : Block) (s : State) : (blkDirect B s).DG = s.DG := rfl
@[simp] theorem blkDirect_comp (B : Block) (s : State) : (blkDirect B s).comp = runCompressor B s.H s.comp := rfl
@[simp] theorem blkDirect_bitlen (B : Block) (s : State) : (blkDirect B s).bitlen = s.bitlen := rfl
@[simp] theorem blkDirect_pos (B : Block) (s : State) : (blkDirect B s).pos = s.pos := rfl
@[simp] theorem blkDirect_cmdReady (B : Block) (s : State) : (blkDirect B s).cmdReady = s.cmdReady := rfl
@[simp] theorem blkDirect_cmdWord (B : Block) (s : State) : (blkDirect B s).cmdWord = s.cmdWord := rfl
@[simp] theorem blkDirect_cmdData (B : Block) (s : State) : (blkDirect B s).cmdData = s.cmdData := rfl
@[simp] theorem blkDirect_rsp (B : Block) (s : State) : (blkDirect B s).rsp = s.rsp := rfl
@[simp] theorem blkDirect_hostActions (B : Block) (s : State) : (blkDirect B s).hostActions = s.hostActions := rfl
@[simp] theorem blkDirect_freeDraws (B : Block) (s : State) : (blkDirect B s).freeDraws = s.freeDraws := rfl

/-! ### msLoad -/

@[simp] theorem msLoad_W (B : Block) (r : Compressor) : (msLoad B r).W = loadWords B r.W := rfl
@[simp] theorem msLoad_vars (B : Block) (r : Compressor) : (msLoad B r).vars = r.vars := rfl
@[simp] theorem msLoad_T1 (B : Block) (r : Compressor) : (msLoad B r).T1 = r.T1 := rfl
@[simp] theorem msLoad_T2 (B : Block) (r : Compressor) : (msLoad B r).T2 = r.T2 := rfl
@[simp] theorem msLoad_t (B : Block) (r : Compressor) : (msLoad B r).t = r.t := rfl

/-! ### msExpand -/

@[simp] theorem msExpand_W (t : Nat) (r : Compressor) :
    (msExpand t r).W = r.W.setIfInBounds t (expandSum (wordAt r.W (t - 2)) (wordAt r.W (t - 7)) (wordAt r.W (t - 15)) (wordAt r.W (t - 16))) := rfl
@[simp] theorem msExpand_vars (t : Nat) (r : Compressor) : (msExpand t r).vars = r.vars := rfl
@[simp] theorem msExpand_T1 (t : Nat) (r : Compressor) : (msExpand t r).T1 = r.T1 := rfl
@[simp] theorem msExpand_T2 (t : Nat) (r : Compressor) : (msExpand t r).T2 = r.T2 := rfl
@[simp] theorem msExpand_t (t : Nat) (r : Compressor) : (msExpand t r).t = r.t := rfl

/-! ### cuLoad -/

@[simp] theorem cuLoad_W (H : Words8) (r : Compressor) : (cuLoad H r).W = r.W := rfl
@[simp] theorem cuLoad_vars (H : Words8) (r : Compressor) : (cuLoad H r).vars = H := rfl
@[simp] theorem cuLoad_T1 (H : Words8) (r : Compressor) : (cuLoad H r).T1 = r.T1 := rfl
@[simp] theorem cuLoad_T2 (H : Words8) (r : Compressor) : (cuLoad H r).T2 = r.T2 := rfl
@[simp] theorem cuLoad_t (H : Words8) (r : Compressor) : (cuLoad H r).t = 0 := rfl

/-! ### cuRound -/

@[simp] theorem cuRound_W (r : Compressor) : (cuRound r).W = r.W := rfl
@[simp] theorem cuRound_vars (r : Compressor) :
    (cuRound r).vars = roundStep r.vars (K r.t.toNat) (wordAt r.W r.t.toNat) := rfl
@[simp] theorem cuRound_T1 (r : Compressor) : (cuRound r).T1 = roundT1 r.vars (K r.t.toNat) (wordAt r.W r.t.toNat) :=
    rfl
@[simp] theorem cuRound_T2 (r : Compressor) : (cuRound r).T2 = roundT2 r.vars := rfl
@[simp] theorem cuRound_t (r : Compressor) : (cuRound r).t = r.t + 1 := rfl

end Sys2Proof.Machine
end

