-- ==== Sys2Proof/Laws/Blocks.lean ====
section
/-! SUPPORT. Cutting a byte sequence into blocks and folding COMPRESS over them (40_context_commands.md R132). -/

namespace Sys2Proof.Machine

/-- The first `a + b` blocks. -/
theorem blocksOf_add (a b : Nat) (z : List Byte) : blocksOf (a + b) z = blocksOf a z ++ blocksOf b (z.drop (64 * a)) :=
    by
  induction a generalizing z with
  | zero => simp [blocksOf]
  | succ a ih =>
    rw [Nat.add_right_comm, blocksOf, ih, blocksOf, List.cons_append, List.drop_drop]
    rw [show 64 + 64 * a = 64 * (a + 1) by ring]

/-- Blocks that lie in `x` do not see what follows `x`. -/
theorem blocksOf_append (a : Nat) (x d : List Byte) (h : 64 * a ≤ x.length) : blocksOf a (x ++ d) = blocksOf a x := by
  induction a generalizing x with
  | zero => rfl
  | succ a ih =>
    rw [blocksOf, blocksOf, blockOf_append _ _ (by omega), List.drop_append_of_le_length (by omega),
        ih _ (by simp; omega)]

theorem hashBlocks_append (S : Words8) (a b : List Block) : hashBlocks S (a ++ b) = hashBlocks (hashBlocks S a) b := by
  simp [hashBlocks]

/-- What a run of BLK_DIRECTs leaves (41_padding_buffer.md R152). -/
theorem directAll_keep (k : Nat) (d : List Byte) (s : State) :
   (directAll k d s).buffer = s.buffer ∧ (directAll k d s).bufferUsed = s.bufferUsed ∧
       (directAll k d s).totalLength = s.totalLength ∧ (directAll k d s).phase = s.phase := by
  unfold directAll
  generalize blocksOf k d = bs
  induction bs generalizing s with
  | nil => exact ⟨rfl, rfl, rfl, rfl⟩
  | cons B bs ih => rw [List.foldl_cons]; simpa using ih (blkDirect B s)

end Sys2Proof.Machine
end

