-- ==== Sys2Proof/Laws/Compression.lean ====
section
/-! SUPPORT. What the compressor's registers go through in one compression (43_compression_unit.md R200). -/

namespace Sys2Proof.Machine

/-- There are sixty-four round constants (10_state.md R30). -/
@[simp] theorem kTable_length : kTable.length = 64 := rfl

/-- The rounds write the working variables, `T1`, `T2` and `t` only, and count `t` up once per schedule word. -/
theorem cuRounds_shape (ws : List Word) (r : Compressor) : ∃ v t1 t2,
    cuRounds ws r = { W := r.W, vars := v, T1 := t1, T2 := t2, t := r.t + BitVec.ofNat 7 ws.length } := by
  induction ws generalizing r with
  | nil => exact ⟨r.vars, r.T1, r.T2, by simp [cuRounds]⟩
  | cons w ws ih =>
    obtain ⟨v, t1, t2, h⟩ := ih (cuRound r)
    refine ⟨v, t1, t2, ?_⟩
    have ht : r.t + 1 + BitVec.ofNat 7 ws.length = r.t + BitVec.ofNat 7 (ws.length + 1) := by
      rw [BitVec.add_assoc, BitVec.add_comm 1, BitVec.ofNat_add]; rfl
    rw [cuRounds, h, cuRound_t, ht, cuRound_W, List.length_cons]

/-- The expansion writes `W` only. -/
theorem msExpandAll_shape (r : Compressor) : ∃ W, msExpandAll r = { r with W := W } := by
  unfold msExpandAll
  generalize List.range' 16 48 = ts
  induction ts generalizing r with
  | nil => exact ⟨r.W, rfl⟩
  | cons t ts ih =>
    obtain ⟨W, h⟩ := ih (msExpand t r)
    exact ⟨W, by rw [List.foldl_cons, h]; rfl⟩

/-- All sixty-four rounds are done. -/
@[simp] theorem runCompressor_t (B : Block) (H : Words8) (r : Compressor) : (runCompressor B H r).t = 64 := by
  unfold runCompressor
  obtain ⟨v, t1, t2, h⟩ := cuRounds_shape (msExpandAll (msLoad B r)).W.toList (cuLoad H (msExpandAll (msLoad B r)))
  rw [h]; simp

/-- The working variables after a run of rounds are the round function folded over the round constants and schedule words from
the current index (43_compression_unit.md R193). -/
theorem cuRounds_vars (ws : List Word) (s : Compressor) (h : s.t.toNat + ws.length ≤ 64) :
    (cuRounds ws s).vars = (((kTable.zip s.W.toList).drop s.t.toNat).take ws.length).foldl (fun v kw => roundStep v kw.1 kw.2) s.vars := by
  induction ws generalizing s with
  | nil => simp [cuRounds]
  | cons w ws ih =>
    rw [List.length_cons] at h
    have ht : (s.t + 1).toNat = s.t.toNat + 1 := by
      rw [BitVec.toNat_add, show (1 : BitVec 7).toNat = 1 from rfl]; omega
    have hl : (kTable.zip s.W.toList).length = 64 := by simp
    have hlt : s.t.toNat < (kTable.zip s.W.toList).length := by omega
    rw [cuRounds, ih _ (by rw [cuRound_t, ht]; omega), cuRound_t, ht, cuRound_W, List.length_cons]
    rw [List.drop_eq_getElem_cons hlt, List.take_succ_cons, List.foldl_cons, cuRound_vars]
    congr 2
    · simp only [List.getElem_zip]
      rw [K, List.getD_eq_getElem]
    · rw [wordAt, Vector.getElem?_eq_getElem (by omega)]
      simp

end Sys2Proof.Machine
end

