-- ==== Sys2Proof/Laws/Buffer.lean ====
section
/-! SUPPORT. What the buffering micro-operations do (41_padding_buffer.md R150, R151, R156). -/

namespace Sys2Proof.Machine

@[simp] theorem held_length (s : State) : s.held.length = min s.bufferUsed.toNat 64 := by simp [State.held]

/-- Everything a run of BUF_PUTs can do: the bytes at the offsets from `buffer_used`, and `buffer_used` counted up. -/
theorem bufPuts_eq (bs : List Byte) (s : State) (h : s.bufferUsed.toNat + bs.length ≤ 64) :
    bufPuts bs s =
      { s with
        buffer := writeBytes s.bufferUsed.toNat bs s.buffer
        bufferUsed := s.bufferUsed + BitVec.ofNat 7 bs.length } := by
  induction bs generalizing s with
  | nil => simp [bufPuts]
  | cons b bs ih =>
    rw [List.length_cons] at h
    have hu : (bufPut b s).bufferUsed.toNat = s.bufferUsed.toNat + 1 := by
      rw [bufPut_bufferUsed, BitVec.toNat_add]; simp; omega
    rw [bufPuts, ih _ (by omega), hu, writeBytes_cons, bufPut_buffer, bytesBE_one, writeBytes_cons, writeBytes_nil]
    simp [BitVec.add_assoc, BitVec.add_comm, BitVec.ofNat_add, bufPut, memWrite]

theorem bufPuts_bufferUsed_toNat (bs : List Byte) (s : State) (h : s.bufferUsed.toNat + bs.length ≤ 64) :
    (bufPuts bs s).bufferUsed.toNat = s.bufferUsed.toNat + bs.length := by
  rw [bufPuts_eq bs s h]
  simp only [BitVec.toNat_add, BitVec.toNat_ofNat]
  omega

theorem bufPuts_append (bs cs : List Byte) (s : State) : bufPuts (bs ++ cs) s = bufPuts cs (bufPuts bs s) := by
  induction bs generalizing s with
  | nil => rfl
  | cons b bs ih => exact ih (bufPut b s)

/-- The held bytes grow by the bytes put. -/
theorem bufPuts_held (bs : List Byte) (s : State) (h : s.bufferUsed.toNat + bs.length ≤ 64) :
    (bufPuts bs s).held = s.held ++ bs := by
  rw [State.held, bufPuts_bufferUsed_toNat bs s h, bufPuts_eq bs s h]
  simp only [writeBytes_toList _ _ _ h, State.held]
  rw [List.append_assoc, ← List.append_assoc, List.take_append_of_le_length (by simp; omega),
      List.take_of_length_le (by simp)]

/-- A full buffer, as a block, is the block of the held bytes. -/
theorem buffer_eq_blockOf_held (s : State) (h : s.bufferUsed.toNat = 64) : s.buffer = blockOf s.held := by
  rw [State.held, h, List.take_of_length_le (by simp), blockOf_toList_self]

/-- Filling the buffer and flushing it compresses the block of the held bytes and the bytes put. -/
theorem bufFlush_bufPuts_buffer (bs : List Byte) (s : State) (h : s.bufferUsed.toNat + bs.length = 64) :
    (bufPuts bs s).buffer = blockOf (s.held ++ bs) := by
  rw [← bufPuts_held bs s (by omega)]
  exact buffer_eq_blockOf_held _ (by rw [bufPuts_bufferUsed_toNat _ _ (by omega)]; omega)

/-- An empty buffer holds nothing. -/
theorem held_of_used_zero (s : State) (h : s.bufferUsed.toNat = 0) : s.held = [] := by simp [State.held, h]

theorem held_length_of_lt (s : State) (hu : s.bufferUsed.toNat < 64) : s.held.length = s.bufferUsed.toNat :=
    by simp; omega

@[simp] theorem lenAdd_held (n : Nat) (s : State) : (lenAdd n s).held = s.held := rfl

@[simp] theorem padLatch_held (s : State) : (padLatch s).held = s.held := rfl

theorem bufPuts_keep (bs : List Byte) (s : State) (h : s.bufferUsed.toNat + bs.length ≤ 64) :
   (bufPuts bs s).H = s.H ∧ (bufPuts bs s).totalLength = s.totalLength ∧ (bufPuts bs s).phase = s.phase := by
  rw [bufPuts_eq bs s h]; exact ⟨rfl, rfl, rfl⟩

theorem bufPuts_withPos (bs : List Byte) (s : State) (p : BitVec 7) : bufPuts bs { s with pos := p } =
    { bufPuts bs s with pos := p } := by
  induction bs generalizing s with
  | nil => rfl
  | cons b bs ih => rw [bufPuts, bufPuts, ← ih]; rfl

theorem bufFlush_withPos (s : State) (p : BitVec 7) : bufFlush { s with pos := p } = { bufFlush s with pos := p } := rfl

theorem compressBlock_withPos (B : Block) (s : State) (p : BitVec 7) : compressBlock B { s with pos := p } =
    { compressBlock B s with pos := p } := rfl

theorem bufPut_eq_bufPuts (b : Byte) (s : State) : bufPut b s = bufPuts [b] s := rfl

/-- PAD_MARK flushes exactly when the marker goes to offset 63 (41_padding_buffer.md R155). -/
theorem padMark_eq (s : State) (h : s.bufferUsed.toNat < 64) :
    padMark s = if s.bufferUsed.toNat = 63 then bufFlush (bufPut 0x80 s) else bufPut 0x80 s := by
  rw [padMark, bufPut_bufferUsed]
  have : s.bufferUsed + 1 = 64 ↔ s.bufferUsed.toNat = 63 := by
    constructor
    · intro h; have := congrArg BitVec.toNat h; simp at this; omega
    · intro h; apply BitVec.eq_of_toNat_eq; simp [h]
  simp only [this]

/-- PAD_MARK and PAD_ZERO when the length field still fits (41_padding_buffer.md R160, case F1). -/
theorem padZero_padMark_short (s : State) (h : s.bufferUsed.toNat ≤ 55) :
    padZero (padMark s) = bufPuts ((0x80 : Byte) :: List.replicate (55 - s.bufferUsed.toNat) (0x00 : Byte)) s := by
  have hu : (bufPut 0x80 s).bufferUsed.toNat = s.bufferUsed.toNat + 1 := by
    rw [bufPut_eq_bufPuts, bufPuts_bufferUsed_toNat _ _ (by simp; omega)]; rfl
  rw [padMark_eq _ (by omega), if_neg (by omega), padZero, if_neg (by omega), zeroFillTo, hu,
    show 56 - (s.bufferUsed.toNat + 1) = 55 - s.bufferUsed.toNat by omega]
  rfl

/-- PAD_MARK and PAD_ZERO when it does not (41_padding_buffer.md R160, cases F2 and F3). -/
theorem padZero_padMark_long (s : State) (h : 56 ≤ s.bufferUsed.toNat) (h' : s.bufferUsed.toNat < 64) :
    padZero (padMark s) = bufPuts (List.replicate 56 (0x00 : Byte)) (bufFlush (bufPuts ((0x80 : Byte) :: List.replicate (63 - s.bufferUsed.toNat) (0x00 : Byte)) s)) := by
  have hu : (bufPut 0x80 s).bufferUsed.toNat = s.bufferUsed.toNat + 1 := by
    rw [bufPut_eq_bufPuts, bufPuts_bufferUsed_toNat _ _ (by simp; omega)]; rfl
  rw [padMark_eq _ h']
  by_cases h63 : s.bufferUsed.toNat = 63
  · rw [if_pos h63, padZero, if_neg (by simp), zeroFillTo, h63]
    simp [bufPuts]
  · rw [if_neg h63, padZero, if_pos (by omega), zeroFillTo, zeroFillTo, hu,
      show 64 - (s.bufferUsed.toNat + 1) = 63 - s.bufferUsed.toNat by omega]
    simp [bufPuts]

/-- At occupancy 56 the length field goes where eight BUF_PUTs would put it (41_padding_buffer.md R157). -/
theorem putLength_eq_bufPuts (s : State) (h : s.bufferUsed.toNat = 56) :
    putLength s = bufPuts (bytesBE 8 s.bitlen) s := by
  have hu : s.bufferUsed = 56#7 := BitVec.eq_of_toNat_eq (by rw [h]; rfl)
  rw [bufPuts_eq _ _ (by rw [h]; simp), putLength, memWrite, hu]
  simp

/-! ### The three shapes of a beat (41_padding_buffer.md R159) -/

/-- Case A: the empty beat changes nothing at all (20_memory.md R72). -/
theorem updateBeat_empty (s : State) : updateBeat [] s = s := by
  simp [updateBeat, lenAdd]

/-- Cases A and B: no block is completed. The empty beat leaves `pos` too. -/
theorem updateBeat_stores (d : List Byte) (s : State) (h : s.bufferUsed.toNat + d.length < 64) :
    updateBeat d s = lenAdd d.length (bufPuts d { s with pos := if d.length = 0 then s.pos else 0 }) := by
  by_cases h0 : d.length = 0
  · rw [List.eq_nil_of_length_eq_zero h0, updateBeat_empty]
    simp [lenAdd, bufPuts]
  · have h1 : completeBuffer d { s with pos := 0 } = { s with pos := 0 } := by
      rw [completeBuffer, if_neg]; simp; omega
    have hz : d.length / 64 = 0 := by omega
    rw [updateBeat, if_neg h0, if_neg h0, absorbBeat, h1, hz, directBlocks, keepTail]
    simp

/-- Case C: the buffer is completed and flushed. -/
theorem updateBeat_completes (d : List Byte) (s : State) (hu : 0 < s.bufferUsed.toNat) (hu64 : s.bufferUsed.toNat < 64) (h : 64 ≤ s.bufferUsed.toNat + d.length) (hd : d.length ≤ 64) :
    updateBeat d s = lenAdd d.length (bufPuts (d.drop (64 - s.bufferUsed.toNat))
      { bufFlush (bufPuts (d.take (64 - s.bufferUsed.toNat)) s) with pos := BitVec.ofNat 7 (64 - s.bufferUsed.toNat) }) := by
  have h0 : completeBuffer d { s with pos := 0 } = { bufFlush (bufPuts (d.take (64 - s.bufferUsed.toNat)) s) with pos := BitVec.ofNat 7 (64 - s.bufferUsed.toNat) } := by
    rw [completeBuffer, if_pos ⟨hu, h⟩]; simp only [bufPuts_withPos, bufFlush_withPos]
  have hp : (BitVec.ofNat 7 (64 - s.bufferUsed.toNat)).toNat = 64 - s.bufferUsed.toNat := by simp; omega
  have h1 : directBlocks d (d.length / 64) (completeBuffer d { s with pos := 0 }) =
      completeBuffer d { s with pos := 0 } := by
    rw [h0]
    cases hq : d.length / 64 with
    | zero => rfl
    | succ q => rw [directBlocks, if_neg]; rw [hp]; omega
  rw [updateBeat, if_neg (by omega), absorbBeat, h1, h0, keepTail, hp]

/-- Case D: a whole block at an empty buffer. -/
theorem updateBeat_bypasses (d : List Byte) (s : State) (hu : s.bufferUsed.toNat = 0) (h : d.length = 64) :
    updateBeat d s = lenAdd 64 { blkDirect (blockOf d) { s with pos := 0 } with pos := 64 } := by
  have h0 : completeBuffer d { s with pos := 0 } = { s with pos := 0 } := by
    rw [completeBuffer, if_neg]; simp; omega
  rw [updateBeat, if_neg (by omega), absorbBeat, h0, h, directBlocks, if_pos (by simp [h])]
  rw [directBlocks, keepTail]
  have : ((0 : BitVec 7) + 64).toNat = 64 := rfl
  simp [bufPuts, List.drop_of_length_le h.le]

/-- What no beat writes (40_context_commands.md R121). -/
theorem updateBeat_keep (d : List Byte) (s : State) (hu : s.bufferUsed.toNat < 64) (hd : d.length ≤ 64) :
    let t := updateBeat d s
    t.phase = s.phase ∧ t.fault = s.fault ∧ t.DG = s.DG ∧ t.bitlen = s.bitlen ∧ t.cmdWord = s.cmdWord ∧
        t.cmdData = s.cmdData ∧ t.hostActions = s.hostActions := by
  intro t
  by_cases h1 : s.bufferUsed.toNat + d.length < 64
  · simp only [t]; rw [updateBeat_stores d s h1, bufPuts_eq _ _ (by simp; omega)]; exact ⟨rfl, rfl, rfl, rfl, rfl,
      rfl, rfl⟩
  · by_cases h2 : 0 < s.bufferUsed.toNat
    · simp only [t]; rw [updateBeat_completes d s h2 hu (by omega) hd, bufPuts_eq _ _ (by simp; omega),
        bufPuts_eq (d.take _) _ (by simp; omega)]; exact ⟨rfl, rfl, rfl, rfl, rfl, rfl, rfl⟩
    · simp only [t]; rw [updateBeat_bypasses d s (by omega) (by omega)]; exact ⟨rfl, rfl, rfl, rfl, rfl, rfl, rfl⟩

end Sys2Proof.Machine
end

