-- ==== Sys2Proof/Laws/Commands.lean ====
section
/-! SUPPORT. What each command and each step can do. -/

namespace Sys2Proof.Machine

/-- Steps 1 to 5 of FINALIZE at an occupancy of at most 55: one compression (41_padding_buffer.md R160, case F1). -/
theorem finalizeContext_short (s : State) (h : s.bufferUsed.toNat ≤ 55) :
    finalizeContext s = dgSerialize (bufFlush (bufPuts ((0x80 : Byte) :: List.replicate (55 - s.bufferUsed.toNat) (0x00 : Byte) ++ bytesBE 8 (s.totalLength <<< 3)) (padLatch s))) := by
  have hu : (bufPuts ((0x80 : Byte) :: List.replicate (55 - s.bufferUsed.toNat) (0x00 : Byte)) (padLatch s)).bufferUsed.toNat = 56 := by
    rw [bufPuts_bufferUsed_toNat _ _ (by simp; omega)]; simp; omega
  have hb : (bufPuts ((0x80 : Byte) :: List.replicate (55 - s.bufferUsed.toNat) (0x00 : Byte)) (padLatch s)).bitlen =
      s.totalLength <<< 3 := by
    rw [bufPuts_eq _ _ (by simp; omega)]; rfl
  rw [finalizeContext, padZero_padMark_short (padLatch s) (by simpa using h), padLen, padLatch_bufferUsed,
      putLength_eq_bufPuts _ hu, hb, bufPuts_append]

/-- Steps 1 to 5 of FINALIZE at an occupancy of 56 or more: two compressions (41_padding_buffer.md R160, cases F2 and F3). -/
theorem finalizeContext_long (s : State) (h : 56 ≤ s.bufferUsed.toNat) (h' : s.bufferUsed.toNat < 64) :
    finalizeContext s = dgSerialize (bufFlush (bufPuts (List.replicate 56 (0x00 : Byte) ++ bytesBE 8 (s.totalLength <<< 3))
      (bufFlush (bufPuts ((0x80 : Byte) :: List.replicate (63 - s.bufferUsed.toNat) (0x00 : Byte)) (padLatch s))))) := by
  have hu : (bufPuts (List.replicate 56 (0x00 : Byte)) (bufFlush (bufPuts ((0x80 : Byte) :: List.replicate (63 - s.bufferUsed.toNat) (0x00 : Byte)) (padLatch s)))).bufferUsed.toNat = 56 := by
    rw [bufPuts_bufferUsed_toNat _ _ (by simp)]; simp
  have hb : (bufPuts (List.replicate 56 (0x00 : Byte)) (bufFlush (bufPuts ((0x80 : Byte) :: List.replicate (63 - s.bufferUsed.toNat) (0x00 : Byte)) (padLatch s)))).bitlen = s.totalLength <<< 3 := by
    rw [bufPuts_eq _ _ (by simp), bufPuts_eq _ _ (by simp; omega)]; rfl
  rw [finalizeContext, padZero_padMark_long (padLatch s) (by simpa using h) (by simpa using h'), padLen,
      padLatch_bufferUsed, putLength_eq_bufPuts _ hu, hb, bufPuts_append]

/-- What FINALIZE does not write (40_context_commands.md R124). -/
theorem finalizeContext_keep (s : State) (h : s.bufferUsed.toNat < 64) :
   (finalizeContext s).fault = s.fault ∧ (finalizeContext s).cmdWord = s.cmdWord ∧
       (finalizeContext s).cmdData = s.cmdData ∧
   (finalizeContext s).hostActions = s.hostActions ∧ (finalizeContext s).freeDraws = s.freeDraws := by
  by_cases h5 : s.bufferUsed.toNat ≤ 55
  · rw [finalizeContext_short s h5, bufPuts_eq _ _ (by simp; omega)]; exact ⟨rfl, rfl, rfl, rfl, rfl⟩
  · rw [finalizeContext_long s (by omega) h, bufPuts_eq _ _ (by simp),
      bufPuts_eq _ (padLatch s) (by simp; omega)]; exact ⟨rfl, rfl, rfl, rfl, rfl⟩

/-- Everything `raise` does (60_exceptions.md R234). -/
theorem raise_eq (cause : FaultCause) (s : State) :
    raise cause s = { s with fault := true, rsp := some cause.code, cmdReady := true } := rfl

/-- INIT (40_context_commands.md R120). -/
theorem exec_init_eq (s : State) :
    exec .init s = .next (respond .ok { s with H := IV, totalLength := 0, bufferUsed := 0, phase := .active }) := rfl

/-- An accepted UPDATE (40_context_commands.md R121). -/
theorem exec_update_eq (s : State) (len : BitVec 7) (hp : s.phase = .active)
    (h : s.bufferUsed.toNat < 64) (hl : len.toNat ≤ 64) :
    exec (.update len) s = .next (respond .ok (updateBeat (beatBytes len.toNat s.cmdData) s)) := by
  show execUpdate len s = _
  rw [execUpdate, if_neg (by omega), if_neg (by simp [hp]), if_neg (by omega)]

/-- A refused UPDATE (60_exceptions.md R231). -/
theorem exec_update_refused (s : State) (len : BitVec 7) (hp : s.phase ≠ .active) (hl : len.toNat ≤ 64) :
   exec (.update len) s = .next (raise .invalidContextState s) := by
  show execUpdate len s = _
  rw [execUpdate, if_neg (by omega), if_pos hp]

/-- An accepted FINALIZE (40_context_commands.md R124). -/
theorem exec_finalize_eq (s : State) (hp : s.phase = .active) (h : s.bufferUsed.toNat < 64) :
    exec .finalize s = .next (respond .ok { releaseContext (finalizeContext s) with phase := .finalized }) := by
  show execFinalize s = _
  rw [execFinalize, if_neg (by simp [hp]), if_neg (by omega)]

/-- A refused FINALIZE (60_exceptions.md R231). -/
theorem exec_finalize_refused (s : State) (hp : s.phase ≠ .active) :
   exec .finalize s = .next (raise .invalidContextState s) := by
  show execFinalize s = _
  rw [execFinalize, if_pos hp]

/-- Everything a command can do when it gives a next state: each is accepted with its effect, or refused. -/
theorem exec_cases {i : Instr} {s t : State} (h : exec i s = .next t) :
    (i = .init ∧ t = respond .ok { s with H := IV, totalLength := 0, bufferUsed := 0, phase := .active }) ∨
    (∃ len, i = .update len ∧ len.toNat ≤ 64 ∧ s.phase = .active ∧ s.bufferUsed.toNat < 64 ∧
        t = respond .ok (updateBeat (beatBytes len.toNat s.cmdData) s)) ∨
    (i = .finalize ∧ s.phase = .active ∧ s.bufferUsed.toNat < 64 ∧
        t = respond .ok { releaseContext (finalizeContext s) with phase := .finalized }) ∨
    (∃ c, t = raise c s ∧ i ≠ .init ∧ (i.wellFormed = true → c = .invalidContextState ∧ s.phase ≠ .active)) := by
  cases i with
  | init => left; rw [exec_init_eq] at h; cases h; exact ⟨rfl, rfl⟩
  | update len =>
    right
    change execUpdate len s = _ at h
    unfold execUpdate at h
    split at h
    · cases h; right; right; exact ⟨_, rfl, by simp, by simp [Instr.wellFormed]; omega⟩
    · split at h
      · cases h; right; right; exact ⟨_, rfl, by simp, fun _ => ⟨rfl, by assumption⟩⟩
      · split at h
        · cases h
        · cases h; left; exact ⟨len, rfl, by omega, by simp_all, by omega, rfl⟩
  | finalize =>
    right; right
    change execFinalize s = _ at h
    unfold execFinalize at h
    split at h
    · cases h; right; exact ⟨_, rfl, by simp, fun _ => ⟨rfl, by assumption⟩⟩
    · split at h
      · cases h
      · cases h; left; exact ⟨rfl, by simp_all, by omega, rfl⟩

/-- Everything a step can do when it gives a next state. -/
theorem step_cases {s t : State} (h : step s = .next t) :
    (t = idle s ∧ (s.hostActions = [] ∨ s.cmdReady = false ∧ ∃ cw data rest,
        s.hostActions = .command cw data :: rest)) ∨
    (∃ rest, s.hostActions = .idle :: rest ∧ t = idle { s with hostActions := rest }) ∨
    (∃ rest, s.hostActions = .reset :: rest ∧ t = resetEvent { s with hostActions := rest }) ∨
    (∃ cw data rest, s.hostActions = .abortedCommand cw data :: rest ∧
        t = resetEvent (transfer cw data { s with hostActions := rest })) ∨
    (∃ cw data rest, s.cmdReady = true ∧ s.hostActions = .command cw data :: rest ∧
      ((∃ i, decode cw = .ok i ∧ exec i (transfer cw data { s with hostActions := rest }) = .next t) ∨
       (∃ e, decode cw = .error e ∧ t = raise .illegalCommand (transfer cw data { s with hostActions := rest })))) := by
  unfold step at h
  split at h
  · next ha => cases h; exact Or.inl ⟨rfl, Or.inl ha⟩
  · next ha => cases h; exact Or.inr (Or.inl ⟨_, ha, rfl⟩)
  · next ha => cases h; exact Or.inr (Or.inr (Or.inl ⟨_, ha, rfl⟩))
  · next ha =>
    split at h
    · next hr =>
      right; right; right; right
      refine ⟨_, _, _, hr, ha, ?_⟩
      unfold runCommand at h
      rw [transfer_cmdWord] at h
      split at h
      · next i hd => exact Or.inl ⟨i, hd, h⟩
      · next e hd => cases h; exact Or.inr ⟨e, hd, rfl⟩
    · next hr => cases h; exact Or.inl ⟨rfl, Or.inr ⟨by simpa using hr, _, _, _, ha⟩⟩
  · next ha => cases h; exact Or.inr (Or.inr (Or.inr (Or.inl ⟨_, _, _, ha, rfl⟩)))

end Sys2Proof.Machine
end

