-- ==== Sys2Proof/Laws/Encoding.lean ====
section
/-! SUPPORT. The fields of a command word (30_encoding.md R92). -/

namespace Sys2Proof

/-- A command word is its three fields. -/
theorem assemble_fields (cw : BitVec 16) : assemble (opField cw) (zeroField cw) (lenField cw) = cw := by
  apply BitVec.eq_of_getLsbD_eq
  intro i hi
  simp only [assemble, opField, zeroField, lenField, BitVec.getLsbD_append, BitVec.getLsbD_extractLsb']
  by_cases h1 : i < 7
  · simp [h1]
  · by_cases h2 : i - 7 < 5
    · simp [h1, h2, show 7 + (i - 7) = i by omega]
    · have h3 : i - 7 - 5 < 4 := by omega
      simp [h1, h2, h3, show 12 + (i - 7 - 5) = i by omega]

theorem opField_assemble (o : BitVec 4) (z : BitVec 5) (l : BitVec 7) : opField (assemble o z l) = o := by
  apply BitVec.eq_of_getLsbD_eq
  intro i hi
  simp only [assemble, opField, BitVec.getLsbD_append, BitVec.getLsbD_extractLsb']
  simp [hi, show ¬ 12 + i < 7 by omega, show ¬ 12 + i - 7 < 5 by omega, show 12 + i - 7 - 5 = i by omega]

theorem zeroField_assemble (o : BitVec 4) (z : BitVec 5) (l : BitVec 7) : zeroField (assemble o z l) = z := by
  apply BitVec.eq_of_getLsbD_eq
  intro i hi
  simp only [assemble, zeroField, BitVec.getLsbD_append, BitVec.getLsbD_extractLsb']
  simp [hi]

theorem lenField_assemble (o : BitVec 4) (z : BitVec 5) (l : BitVec 7) : lenField (assemble o z l) = l := by
  apply BitVec.eq_of_getLsbD_eq
  intro i hi
  simp only [assemble, lenField, BitVec.getLsbD_append, BitVec.getLsbD_extractLsb']
  simp [hi]

/-- The number a command word is, from its fields. -/
theorem commandWord_toNat (cw : BitVec 16) : cw.toNat = (opField cw).toNat * 4096 + (zeroField cw).toNat * 128 + (lenField cw).toNat := by
  simp only [opField, zeroField, lenField, BitVec.extractLsb'_toNat, Nat.shiftRight_eq_div_pow]
  have := cw.isLt
  omega

end Sys2Proof
end

