-- ==== Sys2Proof/Laws/PerInstr.lean ====
section
/-! SUPPORT. Statements for all instructions, one lemma per constructor of `Instr`. -/

namespace Sys2Proof.Laws.EncodingFields

/-- The encoding of a command has a zero `zero` field and one of the three opcodes, and the word of an ill-formed command is one
the decoder refuses, in class (d) (30_encoding.md R92, R93, R98). -/
def Statement (i : Instr) : Prop :=
  zeroField (encode i) = 0#5 ∧ 1#4 ≤ opField (encode i) ∧ opField (encode i) ≤ 3#4 ∧
    (i.wellFormed = false → decode (encode i) = .error .lenOver64)

theorem init : Statement .init := by
  unfold Statement; decide

theorem update (len : BitVec 7) : Statement (.update len) := by
  refine ⟨zeroField_assemble _ _ _, ?_, ?_, ?_⟩
  · rw [encode, opField_assemble]; decide
  · rw [encode, opField_assemble]; decide
  · intro h
    simp [Instr.wellFormed] at h
    simp [decode, encode, opField_assemble, zeroField_assemble, lenField_assemble, h]

theorem finalize : Statement .finalize := by
  unfold Statement; decide

end Sys2Proof.Laws.EncodingFields
end

