-- ==== Sys2Proof/Laws/Schedule.lean ====
section
/-! SUPPORT. The words of a block and of its message schedule (42_message_schedule.md R170, R171). -/

namespace Sys2Proof.Machine

theorem wordsBE_length (l : List Byte) : (wordsBE l).length = l.length / 4 := by
  fun_induction wordsBE l with
  | case1 b0 b1 b2 b3 bytes ih => simp [ih]; omega
  | case2 l h =>
    match l, h with
    | [], _ => rfl
    | [_], _ => simp
    | [_, _], _ => simp
    | [_, _, _], _ => simp
    | a :: b :: c :: d :: l, h => exact absurd rfl (h a b c d l)

/-- Word `i` is made of bytes `4i` to `4i + 3`. -/
theorem wordsBE_getElem (l : List Byte) (i : Nat) (h : 4 * i + 3 < l.length) :
    (wordsBE l).getD i 0 = be32 l[4 * i] l[4 * i + 1] l[4 * i + 2] l[4 * i + 3] := by
  fun_induction wordsBE l generalizing i with
  | case1 b0 b1 b2 b3 bytes ih =>
    cases i with
    | zero => rfl
    | succ i =>
      simp only [List.length_cons] at h
      have := ih i (by omega)
      simp only [List.getD_cons_succ, this]
      rfl
  | case2 l hl =>
    match l, hl with
    | [], _ => simp at h
    | [_], _ => simp at h
    | [_, _], _ => simp at h
    | [_, _, _], _ => simp at h
    | a :: b :: c :: d :: l, hl => exact absurd rfl (hl a b c d l)

theorem blockWords_length (B : Block) : (blockWords B).length = 16 := by simp [blockWords, wordsBE_length]

/-- The words of a block are what `MemRead(4*i, 4)` reads (42_message_schedule.md R170). -/
theorem blockWords_getD (B : Block) (i : Nat) (h : i < 16) : (blockWords B).getD i 0 = memRead4 B (4 * i) := by
  rw [blockWords, wordsBE_getElem _ _ (by simp; omega), memRead4, memRead1_eq _ (by omega), memRead1_eq _ (by omega),
      memRead1_eq _ (by omega), memRead1_eq _ (by omega)]
  simp

/-- Everything the sixteen writes of MS_LOAD do (42_message_schedule.md R170). -/
theorem loadWords_getElem (B : Block) (W : Vector Word 64) {i : Nat} (hi : i < 64) :
    (loadWords B W)[i] = if i < 16 then memRead4 B (4 * i) else W[i] := by
  unfold loadWords
  suffices h : ∀ n ≤ 16, ((List.range n).foldl (fun W i => W.setIfInBounds i (memRead4 B (4 * i))) W)[i]
      = if i < n then memRead4 B (4 * i) else W[i] from h 16 le_rfl
  intro n hn
  induction n with
  | zero => simp
  | succ n ih =>
    rw [List.range_succ, List.foldl_append, List.foldl_cons, List.foldl_nil, Vector.getElem_setIfInBounds,
        ih (by omega)]
    by_cases h : n = i
    · subst h; simp
    · rw [if_neg h]; congr 1; simp; omega

theorem expandWords_length (n : Nat) (w : List Word) : (expandWords n w).length = w.length + n := by
  induction n generalizing w with
  | zero => simp [expandWords]
  | succ n ih => rw [expandWords, ih]; simp; omega

/-- Expansion keeps the words it has. -/
theorem expandWords_getD (n : Nat) (l : List Word) (i : Nat) (h : i < l.length) : (expandWords n l).getD i 0 =
    l.getD i 0 := by
  induction n generalizing l with
  | zero => rfl
  | succ n ih => rw [expandWords, ih _ (by simp; omega)]; simp only [List.getD_eq_getElem?_getD]; rw [List.getElem?_append_left h]

theorem expandWords_append (a b : Nat) (l : List Word) : expandWords (a + b) l = expandWords b (expandWords a l) := by
  induction a generalizing l with
  | zero => rw [Nat.zero_add]; rfl
  | succ a ih => rw [Nat.add_right_comm, expandWords, ih, expandWords]

theorem schedule_length (B : Block) : (schedule B).length = 64 := by unfold schedule; rw [expandWords_length,
    blockWords_length]

end Sys2Proof.Machine
end

