-- ==== Sys2Proof/Tests/Slice0.lean ====
section
/-! SUPPORT. Tests of the model's author. Every expected value is from 95_test_vectors.md or from the encoding rules, written out by
hand. The second half has, for every statement with hypotheses, a state and operands that meet all of them, at the boundary
values of each clause. -/

namespace Sys2Proof.Tests

open Machine

/-! ### Decoding (95_test_vectors.md section 2; the words bit by bit from 30_encoding.md R92 to R98) -/

theorem test_decode_init : decode 0b0001000000000000#16 = .ok .init := by decide
theorem test_decode_update_0 : decode 0b0010000000000000#16 = .ok (.update 0) := by decide
theorem test_decode_update_63 : decode 0b0010000000111111#16 = .ok (.update 63) := by decide
theorem test_decode_update_64 : decode 0b0010000001000000#16 = .ok (.update 64) := by decide
theorem test_decode_finalize : decode 0b0011000000000000#16 = .ok .finalize := by decide
theorem test_decode_all_zero : decode 0b0000000000000000#16 = .error .reservedOpcode := by decide
theorem test_decode_all_one : decode 0b1111111111111111#16 = .error .reservedOpcode := by decide
theorem test_decode_first_reserved : decode 0b0100000000000000#16 = .error .reservedOpcode := by decide
theorem test_decode_zero_field : decode 0b0010100000000000#16 = .error .nonzeroZeroField := by decide
theorem test_decode_init_zero_field : decode 0b0001000010000000#16 = .error .nonzeroZeroField := by decide
theorem test_decode_init_len : decode 0b0001000000000001#16 = .error .unexpectedLen := by decide
theorem test_decode_finalize_len : decode 0b0011000001000000#16 = .error .unexpectedLen := by decide
theorem test_decode_len_65 : decode 0b0010000001000001#16 = .error .lenOver64 := by decide
theorem test_decode_len_127 : decode 0b0010000001111111#16 = .error .lenOver64 := by decide

/-- The opcode table's bit numbering is the command word's own: bit 0 is the least significant. -/
theorem test_table_word : decodeTableWord 16 0x2040 = some (.update 64) := by decide

/-! ### The one check of WellFormed: the byte count (30_encoding.md R97) -/

theorem test_wellFormed_64 : (Instr.update 64).wellFormed = true := by decide
theorem test_illFormed_65 : (Instr.update 65).wellFormed = false := by decide
theorem test_illFormed_127 : (Instr.update 127).wellFormed = false := by decide

/-! ### The compressor and the schedule (95_test_vectors.md sections 3, 5.2, 5.3) -/

/-- The primes up to `limit`, by trial division. -/
def primesTo (limit : Nat) : List Nat :=
  (List.range' 2 (limit - 1)).filter fun p => (List.range' 2 (p - 2)).all fun d => p % d != 0

/-- `frac` is the first 32 bits of the fractional part of the `n`-th root of `p`, a root below 32. -/
def isRootFraction (n p : Nat) (frac : Word) : Bool :=
  (List.range 32).any fun whole =>
    let r := whole * 2 ^ 32 + frac.toNat
    r ^ n ≤ p * 2 ^ (32 * n) && p * 2 ^ (32 * n) < (r + 1) ^ n

/-- `K[t]` is cut from the cube root of the t-th prime, 2 to 311 (10_state.md R30, in words). -/
theorem test_K_cube_roots :
    kTable.length = (primesTo 311).length ∧
      ((primesTo 311).zip kTable).all (fun x => isRootFraction 3 x.1 x.2) = true := by decide +kernel

/-- `IV[i]` is cut from the square root of the i-th prime, 2 to 19 (10_state.md R21, in words). -/
theorem test_IV_square_roots :
    ((primesTo 19).zip [IV.a, IV.b, IV.c, IV.d, IV.e, IV.f, IV.g, IV.h]).all (fun x => isRootFraction 2 x.1 x.2) = true := by decide +kernel

/-- The padded message "abc" as a block (95_test_vectors.md section 3). -/
def abcBlock : Block := blockOf ([(0x61 : Byte), 0x62, 0x63, 0x80] ++ List.replicate 59 (0x00 : Byte) ++ [0x18])

/-- The hash of "abc" as words (95_test_vectors.md section 3). -/
def abcHash : Words8 :=
  ⟨0xba7816bf, 0x8f01cfea, 0x414140de, 0x5dae2223, 0xb00361a3, 0x96177a9c, 0xb410ff61, 0xf20015ad⟩

/-- A unit in ACTIVE with the given occupancy and count, `H = IV`, every other register as after reset. -/
def active (used : BitVec 7) (total : Dword) : State :=
  { State.reset with H := IV, phase := .active, bufferUsed := used, totalLength := total }

/-- The pure function on the block of "abc". -/
theorem test_compress_abc : compress IV abcBlock = abcHash := by decide +kernel

/-- The register-by-register compressor on the block of "abc". -/
theorem test_compressBlock_abc : (compressBlock abcBlock (active 0 0)).H = abcHash := by decide +kernel

/-- Schedule words of the block of "abc": the first, the last loaded, and three expanded ones. -/
theorem test_schedule_abc :
    [0, 15, 16, 17, 63].map (fun i => (schedule abcBlock).getD i 0) =
      [0x61626380, 0x00000018, 0x61626380, 0x000f0000, 0x12b1edeb] := by decide +kernel

/-- A block of zero bytes from eight zero words. -/
theorem test_compress_zeros :
    compress ⟨0, 0, 0, 0, 0, 0, 0, 0⟩ (blockOf (List.replicate 64 (0x00 : Byte))) =
      ⟨0x7ca51614, 0x425c3ba8, 0xce54dd2f, 0xc2020ae7, 0xb6e574d1, 0x98136d0f, 0xae7e26cc, 0xbf0be7a6⟩ := by
  decide +kernel

/-! ### The three commands, one step each (95_test_vectors.md sections 5.4 to 5.6 and 7) -/

/-- One step that presents a word and three data bytes from a state, as the state after, if there is one. -/
def present (word : BitVec 16) (bytes : List Byte) (s : State) : Option State :=
  match step { s with hostActions := [.command word (packLanes bytes)] } with
  | .next t => some t
  | _ => none

/-- The host's check: a word placed for the fetch runs as the first instruction after reset. -/
theorem test_first_instruction :
    (match step (State.reset.withFetchWord 16 0x1000) with | .next t => some (t.rsp, t.status) | _ => none) =
      some (some .ok, 0b0001#4) := by decide

/-- INIT from UNINIT (P1, event 1). -/
theorem test_init :
    (present 0x1000 [] State.reset).map (fun t => (t.H.a, t.H.h, t.totalLength, t.bufferUsed, t.status)) =
      some (0x6a09e667, 0x5be0cd19, 0, 0, 0b0001#4) := by decide +kernel

/-- UPDATE 3 of "abc" (P2, event 2). -/
theorem test_update_abc :
    (present 0x2003 [0x61, 0x62, 0x63] (active 0 0)).map
        (fun t => (t.buffer.toList.take 4, t.bufferUsed, t.totalLength, t.H == IV)) =
      some ([0x61, 0x62, 0x63, 0x00], 3, 3, true) := by decide +kernel

/-- UPDATE 64 at occupancy 63 keeps `d[1..63]` at offsets 0 to 62 (section 5.4, (63, 63) with `len` 64). -/
theorem test_update_completes :
    (present 0x2040 [0xa0, 0xa1, 0xa2] (active 63 63)).map
        (fun t => (t.buffer.toList.take 3, t.bufferUsed, t.totalLength)) =
      some ([0xa1, 0xa2, 0x00], 63, 127) := by decide +kernel

/-- UPDATE 0 changes no state, the beat position included (20_memory.md R72). -/
theorem test_update_empty :
    (present 0x2000 [] { active 5 5 with pos := 9 }).map (fun t => (t.rsp, t.pos, t.bufferUsed, t.totalLength)) =
      some (some .ok, 9, 5, 5) := by decide +kernel

/-- FINALIZE of the empty message (P1, event 2). -/
theorem test_finalize_empty :
    (present 0x3000 [] (active 0 0)).map (fun t => (t.H.a, t.H.h, t.status)) =
      some (0xe3b0c442, 0x7852b855, 0b1010#4) := by decide +kernel

/-- The digest port after the hash of "abc" (44_digest_output.md R221; section 2). -/
theorem test_digest_port :
    ({ State.reset with phase := .finalized, DG := serialize abcHash } : State).digestPort =
      0xba7816bf8f01cfea414140de5dae2223b00361a396177a9cb410ff61f20015ad#256 := by decide +kernel

/-- UPDATE 3 in UNINIT is misuse (section 5.6). -/
theorem test_misuse :
    (present 0x2003 [0x61, 0x62, 0x63] State.reset).map (fun t => (t.rsp, t.status)) =
      some (some .invalidContextState, 0b0100#4) := by decide +kernel

/-- The all-zero word in UNINIT: illegal wins over the phase (section 5.6). -/
theorem test_illegal_first :
    (present 0x0000 [] State.reset).map (fun t => (t.rsp, t.status)) =
      some (some .illegalCommand, 0b0100#4) := by decide +kernel

/-- An illegal word in ACTIVE: the hash goes on (section 5.6). -/
theorem test_illegal_active :
    (present 0x2041 [] (active 5 5)).map (fun t => (t.rsp, t.status, t.bufferUsed)) =
      some (some .illegalCommand, 0b0101#4, 5) := by decide +kernel

/-! ### Witnesses: hypotheses that are met -/

/-- A finalized unit with the digest of "abc". -/
def done : State := { State.reset with phase := .finalized, H := abcHash, DG := serialize abcHash }

/-- A state with the host's next actions. -/
def withActions (as : List HostAction) (s : State) : State := { s with hostActions := as }

theorem witness_DecodeOfEncode : (Instr.update 0).wellFormed = true ∧ (Instr.update 64).wellFormed = true := by decide

theorem witness_EncodeOfDecode :
    decode 0x1000#16 = .ok .init ∧ decode 0x2000#16 = .ok (.update 0) ∧ decode 0x2040#16 = .ok (.update 64) ∧
      decode 0x3000#16 = .ok .finalize := by decide

theorem witness_StepRunsDecodedCommand :
    (withActions [.command 0x2040 0] (active 63 63)).cmdReady = true ∧
      (withActions [.command 0x2040 0] (active 63 63)).hostActions = .command 0x2040 0 :: [] ∧
      decode 0x2040#16 = .ok (.update 64) := ⟨rfl, rfl, by decide⟩

theorem witness_IllegalWordIsRefused :
    (withActions [.command 0x2041 0] (active 63 63)).cmdReady = true ∧
      (withActions [.command 0x2041 0] (active 63 63)).hostActions = .command 0x2041 0 :: [] ∧
      illegalWord 0x2041#16 ∧ illegalWord 0x0fff#16 ∧ illegalWord 0x1001#16 ∧ illegalWord 0x1fff#16 ∧
      illegalWord 0x2fff#16 ∧ illegalWord 0x3001#16 := ⟨rfl, rfl, by decide⟩

theorem witness_Idle_nothing : State.reset.hostActions = [] := rfl

theorem witness_Idle_idle : (withActions [.idle] State.reset).hostActions = .idle :: [] := rfl

theorem witness_Idle_busy :
    (withActions [.command 0x1000 0] { State.reset with cmdReady := false }).cmdReady = false ∧
      (withActions [.command 0x1000 0] { State.reset with cmdReady := false }).hostActions = .command 0x1000 0 :: [] :=
  ⟨rfl, rfl⟩

theorem witness_ResetEventClears_reset : (withActions [.reset] done).hostActions = .reset :: [] := rfl

theorem witness_ResetEventClears_abort :
    ∃ cw data, (withActions [.abortedCommand 0x3000 0] (active 3 3)).hostActions = .abortedCommand cw data :: [] :=
  ⟨_, _, rfl⟩

theorem witness_AfterReset : Instr.init.wellFormed = true ∧ (Instr.update 64).wellFormed = true := by decide

/-- Also the premise of EveryCommandResponds. -/
theorem witness_PhaseTransitions_command :
    Inv (withActions [.command 0x1000 0] (active 63 63)) ∧ Inv (withActions [.command 0x3000 0] State.reset) ∧
      Inv (withActions [.command 0x2040 0] done) := by decide +kernel

/-- The four clauses on the word at the ends of their ranges; they exclude each other. -/
theorem witness_PhaseTransitions_words :
    (0x2000#16 ≤ 0x2000#16 ∧ 0x2000#16 ≤ 0x2040#16) ∧ (0x2000#16 ≤ 0x2040#16 ∧ 0x2040#16 ≤ 0x2040#16) ∧
      illegalWord 0x2041#16 ∧ illegalWord 0x1fff#16 ∧ ¬ illegalWord 0x1000#16 ∧ ¬ illegalWord 0x3000#16 := by decide

theorem witness_PhaseTransitions_reset :
    Inv (withActions [.reset] done) ∧ (withActions [.reset] done).hostActions = .reset :: [] := by decide +kernel

/-- Also of UpdateIsItsMicroSequence and BeatIsGeneralUpdate. -/
theorem witness_UpdateCompletesInActive :
    (active 63 63).phase = .active ∧ (active 63 63).bufferUsed.toNat < 64 ∧ (64#7).toNat ≤ 64 := by decide

theorem witness_UpdateStoresTail_empty :
    (active 63 63).phase = .active ∧ (active 63 63).bufferUsed.toNat + (0#7).toNat < 64 := by decide

theorem witness_UpdateStoresTail_full :
    (active 0 0).phase = .active ∧ (active 0 0).bufferUsed.toNat + (63#7).toNat < 64 := by decide

theorem witness_UpdateCompletesBlock_least :
    (active 1 1).phase = .active ∧ 0 < (active 1 1).bufferUsed.toNat ∧ (active 1 1).bufferUsed.toNat < 64 ∧
      (63#7).toNat ≤ 64 ∧ 64 ≤ (active 1 1).bufferUsed.toNat + (63#7).toNat := by decide

theorem witness_UpdateCompletesBlock_most :
    (active 63 63).phase = .active ∧ 0 < (active 63 63).bufferUsed.toNat ∧ (active 63 63).bufferUsed.toNat < 64 ∧
      (64#7).toNat ≤ 64 ∧ 64 ≤ (active 63 63).bufferUsed.toNat + (64#7).toNat := by decide

theorem witness_UpdateBypassesBuffer : (active 0 64).phase = .active ∧ (active 0 64).bufferUsed = 0 := by decide

theorem witness_UpdateFrame_stores :
    (active 63 63).phase = .active ∧ (0#7).toNat ≤ 64 ∧ (active 63 63).bufferUsed.toNat + (0#7).toNat < 64 ∧
      ∃ t, exec (.update 0) (active 63 63) = .next t :=
  ⟨rfl, by decide, by decide, _, exec_update_eq _ 0 rfl (by decide) (by decide)⟩

theorem witness_UpdateFrame_completes :
    (active 63 63).phase = .active ∧ (64#7).toNat ≤ 64 ∧ 64 ≤ (active 63 63).bufferUsed.toNat + (1#7).toNat ∧
      (∃ t, exec (.update 1) (active 63 63) = .next t) ∧ ∃ t, exec (.update 64) (active 63 63) = .next t :=
  ⟨rfl, by decide, by decide, ⟨_, exec_update_eq _ 1 rfl (by decide) (by decide)⟩,
    _, exec_update_eq _ 64 rfl (by decide) (by decide)⟩

theorem witness_UpdateFrame_bypasses :
    (active 0 0).phase = .active ∧ (64#7).toNat ≤ 64 ∧ ∃ t, exec (.update 64) (active 0 0) = .next t :=
  ⟨rfl, by decide, _, exec_update_eq _ 64 rfl (by decide) (by decide)⟩

theorem witness_EmptyUpdateChangesNothing : (active 63 63).phase = .active ∧ (active 63 63).bufferUsed.toNat < 64 := by
  decide

/-- Data that differs in lane 3 only, for a beat of three bytes. -/
theorem witness_UnusedLanesAreIgnored :
    (∀ k < (3#7).toNat, lane (packLanes [1, 2, 3, 4]) k = lane (packLanes [1, 2, 3, 5]) k) ∧
      packLanes [1, 2, 3, 4] ≠ packLanes [1, 2, 3, 5] := by decide +kernel

theorem witness_CuttingDataIsHarmless : (active 63 63).phase = .active ∧ (active 63 63).bufferUsed.toNat < 64 := by decide

/-- Also of FinalizeIsItsMicroSequence. -/
theorem witness_FinalizeResult_short :
    (active 55 55).phase = .active ∧ (active 55 55).bufferUsed.toNat < 64 ∧ (active 55 55).bufferUsed.toNat ≤ 55 := by decide

theorem witness_FinalizeResult_long :
    (active 56 56).phase = .active ∧ (active 56 56).bufferUsed.toNat < 64 ∧ 56 ≤ (active 56 56).bufferUsed.toNat := by decide

theorem witness_FinalizeResult_last :
    (active 63 63).phase = .active ∧ (active 63 63).bufferUsed.toNat < 64 ∧ 56 ≤ (active 63 63).bufferUsed.toNat := by decide

theorem witness_FinalizeFrame : (active 63 63).phase = .active ∧ ∃ t, exec .finalize (active 63 63) = .next t :=
  ⟨rfl, _, exec_finalize_eq _ rfl (by decide)⟩

theorem witness_CompressionCounts : 63 < 64 ∧ (List.replicate 64 (0xff : Byte)).length ≤ 64 := by decide

theorem witness_ControlIgnoresData : ([0x00, 0x01] : List Byte).length = ([0xff, 0xfe] : List Byte).length := by decide

theorem witness_MisuseIsRefused :
    State.reset.phase ≠ .active ∧ done.phase ≠ .active ∧ (0#7).toNat ≤ 64 ∧ (64#7).toNat ≤ 64 ∧
      ∃ t, exec .init done = .next t :=
  ⟨by decide, by decide, by decide, by decide, _, rfl⟩

theorem witness_RefusalIsPrecise : ∃ t, exec .finalize done = .next t ∧ t.rsp ≠ some .ok :=
  ⟨_, exec_finalize_refused _ (by decide), by decide⟩

theorem witness_FaultIsSticky_cleared :
    (withActions [.reset] { done with fault := true }).fault = true ∧
      ∃ t, step (withActions [.reset] { done with fault := true }) = .next t ∧ t.fault = false := ⟨rfl, _, rfl, rfl⟩

theorem witness_FaultIsSticky_refused :
    ∃ t, step (withActions [.command 0x0000 0] done) = .next t ∧ t.rsp = some .illegalCommand :=
  ⟨_, rfl, rfl⟩

theorem witness_FaultIsSticky_accepted :
    ∃ t, step (withActions [.command 0x1000 0] { done with fault := true }) = .next t ∧ t.rsp = some .ok :=
  ⟨_, rfl, rfl⟩

theorem witness_FaultHasNoEffect :
    (∃ t, exec .finalize (active 63 63) = .next t) ∧ ∃ t, exec (.update 0) done = .next t :=
  ⟨⟨_, exec_finalize_eq _ rfl (by decide)⟩, _, exec_update_refused _ 0 (by decide) (by decide)⟩

/-- The stop itself, in a state no run reaches. -/
theorem witness_OnlyOccupancyStops : exec (.update 1) (active 64 64) = .fault .bufferOccupancy ∧ Inv (active 63 63) :=
  ⟨rfl, by decide +kernel⟩

theorem witness_RoundResult : ({ State.reset.comp with t := 63 } : Compressor).t.toNat ≤ 63 := by decide

theorem witness_BufPutResult : (active 63 63).bufferUsed.toNat ≤ 63 := by decide

theorem witness_FlushAndDirectAgree :
    (active 0 0).bufferUsed = 0 ∧ (List.replicate 64 (0x61 : Byte)).length = 64 := by decide

theorem witness_CounterArithmetic :
    (0 ≤ 64 ∧ 64 ≤ 64) ∧ (active 0 0).totalLength = 0 ∧ (active 3 3).totalLength = 3 ∧
      (active 63 0x1fffffffffffffff).totalLength = 0x1fffffffffffffff ∧
      (active 0 0x2000000000000000).totalLength = 0x2000000000000000 := by decide

theorem witness_PaddingReachesOffset56 :
    ((active 55 55).bufferUsed.toNat < 64 ∧ (active 55 55).bufferUsed.toNat ≤ 55) ∧
      ((active 56 56).bufferUsed.toNat < 64 ∧ 56 ≤ (active 56 56).bufferUsed.toNat) ∧
      ((active 63 63).bufferUsed.toNat < 64 ∧ 56 ≤ (active 63 63).bufferUsed.toNat) := by decide

theorem witness_DigestPortMapping :
    (done.phase = .finalized ∧ done.DG = serialize done.H) ∧ (active 3 3).phase ≠ .finalized :=
  ⟨⟨rfl, rfl⟩, by decide⟩

/-- A refused command in FINALIZED, and the command that ends the digest. -/
theorem witness_DigestIsStable :
    done.phase = .finalized ∧ (∃ t, step (withActions [.command 0x2001 0] done) = .next t) ∧
      ∃ t, step (withActions [.command 0x1000 0] done) = .next t := ⟨rfl, ⟨_, rfl⟩, _, rfl⟩

theorem witness_StepKeepsInv :
    Inv (withActions [.command 0x2041 0] (active 63 63)) ∧
      ∃ t, step (withActions [.command 0x2041 0] (active 63 63)) = .next t := ⟨by decide +kernel, _, rfl⟩

/-- A unit in ACTIVE that has absorbed the bytes 61 62 63. -/
theorem witness_absorbed :
    Absorbed [0x61, 0x62, 0x63]
      { active 3 3 with buffer := blockOf ([0x61, 0x62, 0x63] ++ List.replicate 61 (0x00 : Byte)) } :=
  ⟨rfl, rfl, rfl, rfl, by decide +kernel⟩

theorem witness_AbsorbedBytesAreTracked :
    Absorbed [] (active 0 0) ∧ (64#7).toNat ≤ 64 ∧ (∃ t, exec .init (active 0 0) = .next t) ∧
      (∃ t, exec (.update 64) (active 0 0) = .next t) ∧
      ∃ t, step (withActions [.command 0x0000 0] (active 0 0)) = .next t ∧ t.rsp ≠ some .ok ∧ t.phase = .active :=
  ⟨⟨rfl, rfl, rfl, rfl, rfl⟩, by decide, ⟨_, rfl⟩, ⟨_, exec_update_eq _ 64 rfl (by decide) (by decide)⟩,
    _, rfl, by decide, rfl⟩

theorem witness_StepKeepsAbsorbed :
    (∃ x, Absorbed x (withActions [.command 0x1000 0] (active 0 0))) ∧
      ∃ t, step (withActions [.command 0x1000 0] (active 0 0)) = .next t ∧ t.phase = .active :=
  ⟨⟨[], rfl, rfl, rfl, rfl, rfl⟩, _, rfl, rfl⟩

theorem witness_FinalizeGivesSha256 : Absorbed [] (active 0 0) ∧ ([] : List Byte).length < 2 ^ 61 :=
  ⟨⟨rfl, rfl, rfl, rfl, rfl⟩, by decide⟩

/-- Two beats: 64 bytes and no byte. -/
def twoBeats : List (BitVec 7 × BitVec 512) := [(64, 5), (0, 7)]

theorem legal_twoBeats : LegalBeats twoBeats := by
  intro b hb
  simp only [twoBeats, List.mem_cons, List.not_mem_nil, or_false] at hb
  rcases hb with rfl | rfl <;> decide

theorem witness_MessageDigestIsSha256 :
    (withActions (messageActions 1 twoBeats 2 ++ [.idle]) done).cmdReady = true ∧ LegalBeats twoBeats ∧
      (messageOf twoBeats).length < 2 ^ 61 ∧
      (withActions (messageActions 1 twoBeats 2 ++ [.idle]) done).hostActions = messageActions 1 twoBeats 2 ++ [.idle] :=
  ⟨rfl, legal_twoBeats, by rw [messageOf, List.length_flatMap]; simp only [beatBytes_length]; decide, rfl⟩

theorem witness_CalculateGivesSha256 :
    (withActions (calculate [0x61, 0x62, 0x63] ++ []) done).cmdReady = true ∧
      ([0x61, 0x62, 0x63] : List Byte).length < 2 ^ 61 ∧
      (withActions (calculate [0x61, 0x62, 0x63] ++ []) done).hostActions = calculate [0x61, 0x62, 0x63] ++ [] :=
  ⟨rfl, by decide, rfl⟩

/-- The message 61 62 in one beat. -/
def oneCut : List (BitVec 7 × BitVec 512) := [(2, packLanes [0x61, 0x62])]

/-- The message 61 62 as 61, nothing, 62. -/
def twoCuts : List (BitVec 7 × BitVec 512) := [(1, packLanes [0x61]), (0, 0), (1, packLanes [0x62])]

theorem witness_StreamingEquivalenceAndReuse :
    (withActions (messageActions 0 oneCut 0 ++ []) State.reset).cmdReady = true ∧
      (withActions (messageActions 1 twoCuts 2 ++ []) done).cmdReady = true ∧ LegalBeats oneCut ∧ LegalBeats twoCuts ∧
      messageOf oneCut = messageOf twoCuts := by
  refine ⟨rfl, rfl, ?_, ?_, ?_⟩
  · intro b hb
    rw [List.mem_singleton.mp hb]; decide
  · intro b hb
    simp only [twoCuts, List.mem_cons, List.not_mem_nil, or_false] at hb
    rcases hb with rfl | rfl | rfl <;> decide
  · have h1 : beatBytes 2 (packLanes [0x61, 0x62]) = [0x61, 0x62] := beatBytes_packLanes _ (by decide)
    have h2 : beatBytes 1 (packLanes [0x61]) = [0x61] := beatBytes_packLanes _ (by decide)
    have h3 : beatBytes 1 (packLanes [0x62]) = [0x62] := beatBytes_packLanes _ (by decide)
    show beatBytes 2 _ ++ [] = beatBytes 1 _ ++ (beatBytes 0 _ ++ (beatBytes 1 _ ++ []))
    rw [h1, h2, h3]; rfl

/-- Two states that agree on the specified state and differ in stale buffer bytes and transient registers. -/
theorem witness_SpecifiedStateDeterminesStep :
    Inv (withActions [.command 0x2001 0] (active 0 0)) ∧
      Inv (withActions [.command 0x2001 0] { active 0 0 with buffer := Vector.replicate 64 0xff, pos := 9 }) ∧
      SameSpecified (withActions [.command 0x2001 0] (active 0 0))
        (withActions [.command 0x2001 0] { active 0 0 with buffer := Vector.replicate 64 0xff, pos := 9 }) ∧
      ∃ t, step (withActions [.command 0x2001 0] (active 0 0)) = .next t :=
  ⟨by decide +kernel, by decide +kernel, by decide +kernel, _, rfl⟩

end Sys2Proof.Tests
end

/-! The state family (10_state.md): the invariant between commands, the sticky flag `fault`, the status port. -/

namespace Sys2Proof.Machine

/-! ### The invariant (10_state.md R25, R28) -/

/-- The part of `Inv` that also holds while a command executes, when `cmd_ready` is 0. -/
def ContextInv (s : State) : Prop :=
  (s.phase = .active → s.bufferUsed.toNat < 64 ∧ s.bufferUsed.toNat = s.totalLength.toNat % 64) ∧
  (s.phase = .finalized → s.DG = serialize s.H)

theorem inv_iff_contextInv (s : State) : Inv s ↔ s.cmdReady = true ∧ ContextInv s := Iff.rfl

theorem ContextInv.at_transfer {s : State} (h : ContextInv s) (cw : BitVec 16) (data : BitVec 512)
    (rest : List HostAction) : ContextInv (transfer cw data { s with hostActions := rest }) := h

theorem ContextInv.inv_respond {s : State} (h : ContextInv s) (code : RspCode) : Inv (respond code s) := ⟨rfl, h⟩

theorem ContextInv.inv_raise {s : State} (h : ContextInv s) (cause : FaultCause) : Inv (raise cause s) := ⟨rfl, h⟩

theorem inv_resetEvent (s : State) : Inv (resetEvent s) := by simp [Inv]

theorem bufPuts_totalLength (bs : List Byte) (s : State) (h : s.bufferUsed.toNat + bs.length ≤ 64) :
    (bufPuts bs s).totalLength = s.totalLength := by
  rw [bufPuts_eq bs s h]

/-- The counters after a beat (40_context_commands.md R121), in the three shapes of 41_padding_buffer.md R159. -/
theorem updateBeat_counters (d : List Byte) (s : State) (hu : s.bufferUsed.toNat < 64) (hd : d.length ≤ 64) :
    (updateBeat d s).bufferUsed.toNat = (s.bufferUsed.toNat + d.length) % 64 ∧
      (updateBeat d s).totalLength = s.totalLength + BitVec.ofNat 64 d.length := by
  by_cases hstore : s.bufferUsed.toNat + d.length < 64
  · rw [updateBeat_stores d s hstore, lenAdd_bufferUsed, lenAdd_totalLength,
      bufPuts_bufferUsed_toNat _ _ (by simp; omega), bufPuts_totalLength _ _ (by simp; omega)]
    exact ⟨(Nat.mod_eq_of_lt hstore).symm, rfl⟩
  by_cases hpart : 0 < s.bufferUsed.toNat
  · have htake : s.bufferUsed.toNat + (d.take (64 - s.bufferUsed.toNat)).length ≤ 64 := by simp; omega
    rw [updateBeat_completes d s hpart hu (by omega) hd, lenAdd_bufferUsed, lenAdd_totalLength,
      bufPuts_bufferUsed_toNat _ _ (by simp; omega), bufPuts_totalLength _ _ (by simp; omega)]
    simp only [bufFlush_bufferUsed, bufFlush_totalLength, bufPuts_totalLength _ s htake, List.length_drop]
    exact ⟨by simp; omega, trivial⟩
  · rw [updateBeat_bypasses d s (by omega) (by omega)]
    simp only [lenAdd_bufferUsed, lenAdd_totalLength, blkDirect_bufferUsed, blkDirect_totalLength]
    rw [show d.length = 64 by omega]
    exact ⟨by omega, rfl⟩

/-- A beat keeps `buffer_used = total_length mod 64`, since 64 divides the modulus 2^64 of `total_length`. -/
theorem ContextInv.after_updateBeat {s : State} (h : ContextInv s) (hp : s.phase = .active) (d : List Byte)
    (hd : d.length ≤ 64) : ContextInv (updateBeat d s) := by
  obtain ⟨hlt, hmod⟩ := h.1 hp
  obtain ⟨hused, htotal⟩ := updateBeat_counters d s hlt hd
  have hphase : (updateBeat d s).phase = .active := (updateBeat_keep d s hlt hd).1.trans hp
  refine ⟨fun _ => ?_, by simp [hphase]⟩
  rw [hused, htotal, BitVec.toNat_add, BitVec.toNat_ofNat]
  omega

theorem contextInv_init (s : State) :
    ContextInv { s with H := IV, totalLength := 0, bufferUsed := 0, phase := .active } := by
  simp [ContextInv]

/-- FINALIZE ends with DG_SERIALIZE (40_context_commands.md R124). -/
theorem contextInv_finalize (s : State) :
    ContextInv { releaseContext (finalizeContext s) with phase := .finalized } :=
  ⟨by simp, fun _ => rfl⟩

/-- A command of whatever kind ends with the unit ready and its context in order. -/
theorem exec_establishes_inv {i : Instr} {s t : State} (hs : ContextInv s) (h : exec i s = .next t) : Inv t := by
  obtain ⟨-, rfl⟩ | ⟨len, -, hl, hp, -, rfl⟩ | ⟨-, -, -, rfl⟩ | ⟨c, rfl, -⟩ := exec_cases h
  · exact (contextInv_init s).inv_respond _
  · exact (hs.after_updateBeat hp _ (by simpa using hl)).inv_respond _
  · exact (contextInv_finalize s).inv_respond _
  · exact hs.inv_raise c

/-- Settles O52, by the cases of a step: idling holds the state, a reset leaves UNINIT, and every command ends in `Inv`. -/
theorem stepKeepsInv : Obligations.StepKeepsInv := by
  intro s t hs h
  have hctx : ContextInv s := ((inv_iff_contextInv s).mp hs).2
  obtain ⟨rfl, -⟩ | ⟨rest, -, rfl⟩ | ⟨rest, -, rfl⟩ | ⟨cw, data, rest, -, rfl⟩ |
    ⟨cw, data, rest, -, -, ⟨i, -, hexec⟩ | ⟨e, -, rfl⟩⟩ := step_cases h
  · exact hs
  · exact hs
  · exact inv_resetEvent _
  · exact inv_resetEvent _
  · exact exec_establishes_inv (hctx.at_transfer cw data rest) hexec
  · exact (hctx.at_transfer cw data rest).inv_raise _

/-! ### The flag `fault` (10_state.md R27) -/

theorem FaultCause.code_ne_ok (c : FaultCause) : c.code ≠ .ok := by cases c <;> decide

/-- An accepted command carries `fault` through, a refused one sets it. -/
theorem exec_fault {i : Instr} {s t : State} (h : exec i s = .next t) :
    t.fault = if t.rsp = some .ok then s.fault else true := by
  obtain ⟨-, rfl⟩ | ⟨len, -, hl, -, hu, rfl⟩ | ⟨-, -, hu, rfl⟩ | ⟨c, rfl, -⟩ := exec_cases h
  · rfl
  · obtain ⟨-, hfault, -⟩ := updateBeat_keep (beatBytes len.toNat s.cmdData) s hu (by simpa using hl)
    rw [respond_rsp, if_pos rfl, respond_fault, hfault]
  · obtain ⟨hfault, -⟩ := finalizeContext_keep s hu
    rw [respond_rsp, if_pos rfl, respond_fault, releaseContext_fault, hfault]
  · simp [c.code_ne_ok]

/-- A step is a reset, which clears `fault`; or gives no response and leaves it; or a response, whose code says what it does
to it. -/
theorem step_fault {s t : State} (h : step s = .next t) :
    (t.fault = false ∧ t.rsp = none ∧ ∃ rest,
      s.hostActions = .reset :: rest ∨ ∃ cw data, s.hostActions = .abortedCommand cw data :: rest) ∨
    (t.rsp = none ∧ t.fault = s.fault) ∨
    t.fault = if t.rsp = some .ok then s.fault else true := by
  obtain ⟨rfl, -⟩ | ⟨rest, -, rfl⟩ | ⟨rest, ha, rfl⟩ | ⟨cw, data, rest, ha, rfl⟩ |
    ⟨cw, data, rest, -, -, ⟨i, -, hexec⟩ | ⟨e, -, rfl⟩⟩ := step_cases h
  · exact .inr (.inl ⟨rfl, rfl⟩)
  · exact .inr (.inl ⟨rfl, rfl⟩)
  · exact .inl ⟨rfl, rfl, rest, .inl ha⟩
  · exact .inl ⟨rfl, rfl, rest, .inr ⟨cw, data, ha⟩⟩
  · have hf := exec_fault hexec
    exact .inr (.inr hf)
  · exact .inr (.inr rfl)

/-- Settles O32, from what a reset, an idle step and a response do to `fault`. -/
theorem faultIsSticky : Obligations.FaultIsSticky := by
  intro s t h
  obtain ⟨-, hr, hreset⟩ | ⟨hr, hf⟩ | hf := step_fault h
  · exact ⟨fun _ _ => hreset, by simp [hr], by simp [hr]⟩
  · exact ⟨fun hs ht => by simp [hf, hs] at ht, by simp [hr], by simp [hr]⟩
  · refine ⟨fun hs ht => ?_, ?_, ?_⟩
    · simp [hs, ht] at hf
    · rintro (hr | hr) <;> simpa [hr] using hf
    · intro hr; simpa [hr] using hf

/-! ### No micro-operation reads `fault`: each commutes with setting it -/

/-- The state with `fault` set to a given value. -/
def State.withFault (s : State) (b : Bool) : State := { s with fault := b }

@[simp] theorem withFault_bufferUsed (s : State) (b : Bool) : (s.withFault b).bufferUsed = s.bufferUsed := rfl
@[simp] theorem withFault_pos (s : State) (b : Bool) : (s.withFault b).pos = s.pos := rfl

theorem withFault_withPos (s : State) (b : Bool) (p : BitVec 7) :
    { s.withFault b with pos := p } = State.withFault { s with pos := p } b := rfl

theorem bufPut_withFault (x : Byte) (s : State) (b : Bool) : bufPut x (s.withFault b) = (bufPut x s).withFault b := rfl

theorem bufFlush_withFault (s : State) (b : Bool) : bufFlush (s.withFault b) = (bufFlush s).withFault b := rfl

theorem blkDirect_withFault (B : Block) (s : State) (b : Bool) :
    blkDirect B (s.withFault b) = (blkDirect B s).withFault b := rfl

theorem lenAdd_withFault (n : Nat) (s : State) (b : Bool) : lenAdd n (s.withFault b) = (lenAdd n s).withFault b := rfl

theorem padLatch_withFault (s : State) (b : Bool) : padLatch (s.withFault b) = (padLatch s).withFault b := rfl

theorem putLength_withFault (s : State) (b : Bool) : putLength (s.withFault b) = (putLength s).withFault b := rfl

theorem dgSerialize_withFault (s : State) (b : Bool) : dgSerialize (s.withFault b) = (dgSerialize s).withFault b := rfl

theorem releaseContext_withFault (s : State) (b : Bool) :
    releaseContext (s.withFault b) = (releaseContext s).withFault b := rfl

theorem bufPuts_withFault (bs : List Byte) (s : State) (b : Bool) :
    bufPuts bs (s.withFault b) = (bufPuts bs s).withFault b := by
  induction bs generalizing s with
  | nil => rfl
  | cons x xs ih => rw [bufPuts, bufPut_withFault, ih, bufPuts]

theorem completeBuffer_withFault (d : List Byte) (s : State) (b : Bool) :
    completeBuffer d (s.withFault b) = (completeBuffer d s).withFault b := by
  rw [completeBuffer, completeBuffer, withFault_bufferUsed]
  split
  · rw [bufPuts_withFault, bufFlush_withFault, withFault_withPos]
  · rfl

theorem directBlocks_withFault (d : List Byte) (count : Nat) (s : State) (b : Bool) :
    directBlocks d count (s.withFault b) = (directBlocks d count s).withFault b := by
  induction count generalizing s with
  | zero => rfl
  | succ count ih =>
    rw [directBlocks, directBlocks, withFault_pos]
    split
    · rw [blkDirect_withFault, withFault_withPos, ih]
    · rfl

theorem keepTail_withFault (d : List Byte) (s : State) (b : Bool) :
    keepTail d (s.withFault b) = (keepTail d s).withFault b := by
  rw [keepTail, withFault_pos, bufPuts_withFault, keepTail]

theorem updateBeat_withFault (d : List Byte) (s : State) (b : Bool) :
    updateBeat d (s.withFault b) = (updateBeat d s).withFault b := by
  rw [updateBeat, updateBeat]
  split
  · rw [lenAdd_withFault]
  · rw [absorbBeat, withFault_withPos, completeBuffer_withFault, directBlocks_withFault, keepTail_withFault,
      lenAdd_withFault, absorbBeat]

theorem padMark_withFault (s : State) (b : Bool) : padMark (s.withFault b) = (padMark s).withFault b := by
  rw [padMark, padMark, bufPut_withFault, withFault_bufferUsed]
  split
  · rw [bufFlush_withFault]
  · rfl

theorem zeroFillTo_withFault (limit : Nat) (s : State) (b : Bool) :
    zeroFillTo limit (s.withFault b) = (zeroFillTo limit s).withFault b := by
  rw [zeroFillTo, withFault_bufferUsed, bufPuts_withFault, zeroFillTo]

theorem padZero_withFault (s : State) (b : Bool) : padZero (s.withFault b) = (padZero s).withFault b := by
  rw [padZero, padZero, withFault_bufferUsed]
  split
  · rw [zeroFillTo_withFault, bufFlush_withFault, zeroFillTo_withFault]
  · rw [zeroFillTo_withFault]

theorem finalizeContext_withFault (s : State) (b : Bool) :
    finalizeContext (s.withFault b) = (finalizeContext s).withFault b := by
  rw [finalizeContext, padLatch_withFault, padMark_withFault, padZero_withFault, padLen, putLength_withFault,
    bufFlush_withFault, dgSerialize_withFault, finalizeContext, padLen]

theorem raise_withFault (c : FaultCause) (s : State) (b : Bool) : raise c (s.withFault b) = raise c s := rfl

theorem raise_withFault_true (c : FaultCause) (s : State) : (raise c s).withFault true = raise c s := rfl

/-- The response shows the cause (60_exceptions.md R230). -/
theorem raise_cause_injective (s : State) : Function.Injective fun c => raise c s := by
  intro c c' h
  have hcode : c.code = c'.code := by simpa using congrArg State.rsp h
  match c, c', hcode with
  | .invalidContextState, .invalidContextState, _ => rfl
  | .illegalCommand, .illegalCommand, _ => rfl

/-- A byte count that no beat has is refused whatever the phase (log 16). -/
theorem exec_update_overlong (s : State) (len : BitVec 7) (hl : 64 < len.toNat) :
    exec (.update len) s = .next (raise .illegalCommand s) := by
  show execUpdate len s = _
  rw [execUpdate, if_pos hl]

/-- Settles O33: what a command decides on is not `fault`, and its effect commutes with setting it. -/
theorem faultHasNoEffect : Obligations.FaultHasNoEffect := by
  intro s t i b h
  change exec i (s.withFault b) = .next (t.withFault (if t.rsp = some .ok then b else true))
  obtain ⟨rfl, rfl⟩ | ⟨len, rfl, hl, hp, hu, rfl⟩ | ⟨rfl, hp, hu, rfl⟩ | ⟨c, rfl, hi, hc⟩ := exec_cases h
  · rfl
  · rw [exec_update_eq (s.withFault b) len hp hu hl, updateBeat_withFault]; rfl
  · rw [exec_finalize_eq (s.withFault b) hp hu, finalizeContext_withFault, releaseContext_withFault]; rfl
  · rw [raise_rsp, if_neg (by simp [c.code_ne_ok]), raise_withFault_true, ← raise_withFault c s b]
    cases i with
    | init => exact absurd rfl hi
    | update len =>
      by_cases hl : len.toNat ≤ 64
      · obtain ⟨rfl, hp⟩ := hc (by simpa [Instr.wellFormed] using hl)
        exact exec_update_refused _ len hp hl
      · have hraise := (exec_update_overlong s len (by omega)).symm.trans h
        obtain rfl : .illegalCommand = c := raise_cause_injective s (Host.Outcome.next.inj hraise)
        exact exec_update_overlong _ len (by omega)
    | finalize =>
      obtain ⟨rfl, hp⟩ := hc rfl
      exact exec_finalize_refused _ hp

/-! ### The status port (10_state.md R37) -/

/-- Settles O49, one case for each value of the two registers the port shows. -/
theorem statusValues : Obligations.StatusValues := by
  intro s
  unfold State.status State.digestValid
  generalize s.phase = phase, s.fault = fault
  cases phase <;> cases fault <;> decide

end Sys2Proof.Machine

/-! The memory family (20_memory.md): the block as big-endian words, the message schedule, the length field. -/

namespace Sys2Proof.Machine

/-! ### The schedule as a list of words (42_message_schedule.md R170, R171) -/

theorem wordAt_eq_getElem (W : Vector Word 64) {i : Nat} (h : i < 64) : wordAt W i = W[i] := by
  simp [wordAt, Vector.getElem?_eq_getElem h]

/-- MS_LOAD makes the first sixteen words those of the block. -/
theorem msLoad_take_sixteen (B : Block) (r : Compressor) : (msLoad B r).W.toList.take 16 = blockWords B := by
  rw [msLoad_W]
  apply List.ext_getElem
  · simp [blockWords_length]
  · intro i h hi'
    have hi : i < 16 := by simp at h; omega
    rw [List.getElem_take, Vector.getElem_toList, loadWords_getElem B r.W (by omega), if_pos hi,
      ← blockWords_getD B i hi, List.getD_eq_getElem _ _ hi']

/-- The list form of the next word reads the same four words as MS_EXPAND. -/
theorem nextWord_take (W : Vector Word 64) {t : Nat} (h : 16 ≤ t) (h' : t < 64) :
    nextWord (W.toList.take t) =
      expandSum (wordAt W (t - 2)) (wordAt W (t - 7)) (wordAt W (t - 15)) (wordAt W (t - 16)) := by
  have hlen : (W.toList.take t).length = t := by simp; omega
  have hread : ∀ i < t, (W.toList.take t).getD i 0 = wordAt W i := by
    intro i hi
    rw [List.getD_eq_getElem _ _ (by omega), List.getElem_take, Vector.getElem_toList, wordAt_eq_getElem W (by omega)]
  rw [nextWord, hlen, hread _ (by omega), hread _ (by omega), hread _ (by omega), hread _ (by omega)]

/-- MS_EXPAND keeps the words before `t` and appends the next one. -/
theorem msExpand_take (r : Compressor) {t : Nat} (h : 16 ≤ t) (h' : t < 64) :
    (msExpand t r).W.toList.take (t + 1) = r.W.toList.take t ++ [nextWord (r.W.toList.take t)] := by
  rw [msExpand_W, ← nextWord_take r.W h h', Vector.toList_setIfInBounds, List.take_add_one, List.take_set_of_le le_rfl,
    List.getElem?_set_self (by simpa using h')]
  rfl

/-- The expansion read from its end: the last word is the next one after the words before it. -/
theorem expandWords_succ (n : Nat) (l : List Word) :
    expandWords (n + 1) l = expandWords n l ++ [nextWord (expandWords n l)] := expandWords_append n 1 l

/-- The first `n` MS_EXPANDs append `n` further words to the first sixteen. -/
theorem msExpand_range_take (r : Compressor) (n : Nat) (h : n ≤ 48) :
    ((List.range' 16 n).foldl (fun r t => msExpand t r) r).W.toList.take (16 + n) =
      expandWords n (r.W.toList.take 16) := by
  induction n with
  | zero => rfl
  | succ n ih =>
    rw [List.range'_1_concat, List.foldl_append, List.foldl_cons, List.foldl_nil, ← Nat.add_assoc,
      msExpand_take _ (by omega) (by omega), ih (by omega), expandWords_succ]

/-- The 64-word array of the unit after MS_LOAD and the MS_EXPANDs is the schedule of the block. -/
theorem msExpandAll_msLoad_W (B : Block) (r : Compressor) : (msExpandAll (msLoad B r)).W.toList = schedule B := by
  have h := msExpand_range_take (msLoad B r) 48 le_rfl
  rw [List.take_of_length_le (by simp), msLoad_take_sixteen] at h
  unfold schedule
  exact h

/-! ### The words of the schedule -/

/-- Every word that the expansion adds is the sum of R171 over the words before it. -/
theorem expandWords_getD_expandSum (n : Nat) (l : List Word) (t : Nat) (hl : 16 ≤ l.length) (h : l.length ≤ t)
    (h' : t < l.length + n) :
    (expandWords n l).getD t 0 =
      expandSum ((expandWords n l).getD (t - 2) 0) ((expandWords n l).getD (t - 7) 0)
        ((expandWords n l).getD (t - 15) 0) ((expandWords n l).getD (t - 16) 0) := by
  obtain ⟨k, rfl⟩ := Nat.exists_eq_add_of_le h
  obtain ⟨m, rfl⟩ := Nat.exists_eq_add_of_le (show k + 1 ≤ n by omega)
  have hlen : (expandWords k l).length = l.length + k := expandWords_length k l
  have hearlier : ∀ i < l.length + k, (expandWords (k + 1 + m) l).getD i 0 = (expandWords k l).getD i 0 := by
    intro i hi
    rw [Nat.add_assoc, expandWords_append, expandWords_getD _ _ _ (by omega)]
  have hnext : (expandWords (k + 1 + m) l).getD (l.length + k) 0 = nextWord (expandWords k l) := by
    rw [expandWords_append, expandWords_getD _ _ _ (by rw [expandWords_length]; omega), expandWords_succ,
      List.getD_append_right _ _ _ _ hlen.le, hlen, Nat.sub_self, List.getD_cons_zero]
  rw [hnext, nextWord, hlen, hearlier _ (by omega), hearlier _ (by omega), hearlier _ (by omega),
    hearlier _ (by omega)]

theorem schedule_getD_loaded (B : Block) {i : Nat} (h : i < 16) : (schedule B).getD i 0 = memRead4 B (4 * i) := by
  unfold schedule
  rw [expandWords_getD _ _ _ (by rwa [blockWords_length]), blockWords_getD B i h]

theorem schedule_getD_expanded (B : Block) {t : Nat} (h : 16 ≤ t) (h' : t < 64) :
    (schedule B).getD t 0 =
      expandSum ((schedule B).getD (t - 2) 0) ((schedule B).getD (t - 7) 0) ((schedule B).getD (t - 15) 0)
        ((schedule B).getD (t - 16) 0) := by
  have hlen := blockWords_length B
  unfold schedule
  exact expandWords_getD_expandSum 48 (blockWords B) t (by omega) (by omega) (by omega)

theorem memRead4_toNat (B : Block) (a : Nat) (h : a + 3 < 64) :
    (memRead4 B a).toNat =
      B[a].toNat * 2 ^ 24 + B[a + 1].toNat * 2 ^ 16 + B[a + 2].toNat * 2 ^ 8 + B[a + 3].toNat := by
  rw [memRead4, be32_toNat, memRead1_eq _ (by omega), memRead1_eq _ (by omega), memRead1_eq _ (by omega),
    memRead1_eq _ (by omega)]

/-- Settles O38: the unit's array is the list `schedule B`, whose words are known one by one. -/
theorem scheduleWords : Obligations.ScheduleWords := by
  intro B r
  obtain ⟨W, hW⟩ := msExpandAll_shape (msLoad B r)
  have hword : ∀ i (h : i < 64), W[i] = (schedule B).getD i 0 := by
    intro i h
    rw [← msExpandAll_msLoad_W B r, hW, List.getD_eq_getElem _ _ (by simpa using h), Vector.getElem_toList]
  refine ⟨W, hW, fun i h => ?_, fun t h h' => ?_⟩
  · rw [hword i (by omega), schedule_getD_loaded B h, memRead4_toNat B (4 * i) (by omega)]
  · rw [hword t h', hword (t - 2) (by omega), hword (t - 7) (by omega), hword (t - 15) (by omega),
      hword (t - 16) (by omega), schedule_getD_expanded B h h', expandSum]

/-! ### Compression in the unit (43_compression_unit.md R200) -/

/-- The sixty-four rounds from `H` fold the round function over the constants and the schedule of the block. -/
theorem runCompressor_vars (B : Block) (H : Words8) (r : Compressor) :
    (runCompressor B H r).vars = (kTable.zip (schedule B)).foldl (fun v kw => roundStep v kw.1 kw.2) H := by
  have hlen : (kTable.zip (schedule B)).length = 64 := by simp [schedule_length]
  unfold runCompressor
  rw [cuRounds_vars _ _ (by simp), cuLoad_W, cuLoad_t, cuLoad_vars, msExpandAll_msLoad_W, schedule_length]
  rw [show (0 : BitVec 7).toNat = 0 from rfl, List.drop_zero, List.take_of_length_le hlen.le]

theorem compressBlock_H_eq_compress (B : Block) (s : State) : (compressBlock B s).H = compress s.H B := by
  rw [compressBlock_H, runCompressor_vars]
  unfold compress
  rfl

theorem bufFlush_H_eq_compress (s : State) : (bufFlush s).H = compress s.H s.buffer :=
  compressBlock_H_eq_compress s.buffer s

/-! ### The length field (20_memory.md R65, 41_padding_buffer.md R157) -/

theorem putLength_buffer_lengthField (s : State) {i : Nat} (h : i < 8) :
    (putLength s).buffer[56 + i] = s.bitlen.extractLsb' (8 * (7 - i)) 8 := by
  rw [putLength_buffer, writeBytes_getElem _ _ _ (by omega), bytesBE_length, if_pos (by omega),
    Nat.add_sub_cancel_left, bytesBE_getD 8 i s.bitlen h]

theorem putLength_buffer_before (s : State) {j : Nat} (h : j < 56) : (putLength s).buffer[j] = s.buffer[j] := by
  rw [putLength_buffer, writeBytes_getElem _ _ _ (by omega), if_neg (by omega)]

theorem extractLsb'_byte_of_word {w : Nat} (v : BitVec w) (a : Nat) {b : Nat} (h : b + 8 ≤ 32) :
    (v.extractLsb' a 32).extractLsb' b 8 = v.extractLsb' (a + b) 8 := by
  apply BitVec.eq_of_getLsbD_eq
  intro i hi
  simp [show b + i < 32 by omega, Nat.add_assoc]

/-- MS_LOAD of the block with the length field: the upper half of `bitlen` for `k = 0`, the lower for `k = 1`. -/
theorem msLoad_putLength_W (s : State) (r : Compressor) {k : Nat} (hk : k < 2) :
    (msLoad (putLength s).buffer r).W[14 + k] = s.bitlen.extractLsb' (32 * (1 - k)) 32 := by
  rw [msLoad_W, loadWords_getElem _ _ (by omega), if_pos (by omega)]
  apply memRead4_eq _ _ _ (by omega)
  intro i hi
  have hbyte := putLength_buffer_lengthField s (i := 4 * k + i) (by omega)
  have hoff : 4 * (14 + k) + i = 56 + (4 * k + i) := by omega
  have hbit : 32 * (1 - k) + 8 * (3 - i) = 8 * (7 - (4 * k + i)) := by omega
  simp only [hoff, hbyte, extractLsb'_byte_of_word _ _ (show 8 * (3 - i) + 8 ≤ 32 by omega), hbit]

/-- Settles O46: byte by byte from the store rule, and word by word from the read rule. -/
theorem lengthFieldIsBigEndian : Obligations.LengthFieldIsBigEndian := by
  intro s
  exact ⟨fun _ h => putLength_buffer_lengthField s h, fun _ h => putLength_buffer_before s h, rfl,
    bufFlush_H_eq_compress (putLength s), msLoad_putLength_W s s.comp (k := 0) (by decide),
    msLoad_putLength_W s s.comp (k := 1) (by decide)⟩

end Sys2Proof.Machine

/-! The encoding family (30_encoding.md): the decoder and the encoder, the step on a presented command, the lanes a
command does not use, and the pseudo-command CALCULATE. -/

namespace Sys2Proof.Machine

/-! ### The command word (30_encoding.md R92 to R99) -/

/-- The opcodes of class (a) of 30_encoding.md R98 are those of no command. -/
theorem reservedOp_iff (op : BitVec 4) : (op = 0#4 ∨ 4#4 ≤ op) ↔ op ≠ 1#4 ∧ op ≠ 2#4 ∧ op ≠ 3#4 := by
  revert op; decide

theorem commandOp_iff (op : BitVec 4) : (1#4 ≤ op ∧ op ≤ 3#4) ↔ op = 1#4 ∨ op = 2#4 ∨ op = 3#4 := by
  revert op; decide

/-- Everything the decoder can answer, with the fields of the word that gives the answer (30_encoding.md R98, R99). -/
theorem decode_cases (cw : BitVec 16) :
    (decode cw = .ok .init ∧ opField cw = 1#4 ∧ zeroField cw = 0#5 ∧ lenField cw = 0#7) ∨
    (decode cw = .ok (.update (lenField cw)) ∧ opField cw = 2#4 ∧ zeroField cw = 0#5 ∧ (lenField cw).toNat ≤ 64) ∨
    (decode cw = .ok .finalize ∧ opField cw = 3#4 ∧ zeroField cw = 0#5 ∧ lenField cw = 0#7) ∨
    (decode cw = .error .reservedOpcode ∧ opField cw ≠ 1#4 ∧ opField cw ≠ 2#4 ∧ opField cw ≠ 3#4) ∨
    (decode cw = .error .nonzeroZeroField ∧ (opField cw = 1#4 ∨ opField cw = 2#4 ∨ opField cw = 3#4) ∧
      zeroField cw ≠ 0#5) ∨
    (decode cw = .error .unexpectedLen ∧ (opField cw = 1#4 ∨ opField cw = 3#4) ∧ zeroField cw = 0#5 ∧
      lenField cw ≠ 0#7) ∨
    (decode cw = .error .lenOver64 ∧ opField cw = 2#4 ∧ zeroField cw = 0#5 ∧ 64 < (lenField cw).toNat) := by
  unfold decode
  split_ifs <;> simp_all

/-- The legal words are the encodings of the well-formed commands, and each decodes to its own (30_encoding.md
section 3). -/
theorem decode_eq_ok_iff (cw : BitVec 16) (i : Instr) : decode cw = .ok i ↔ encode i = cw ∧ i.wellFormed = true := by
  constructor
  · intro h
    obtain ⟨hd, hop, hz, hl⟩ | ⟨hd, hop, hz, hl⟩ | ⟨hd, hop, hz, hl⟩ | ⟨hd, -⟩ | ⟨hd, -⟩ | ⟨hd, -⟩ | ⟨hd, -⟩ :=
      decode_cases cw <;> cases hd.symm.trans h
    · exact ⟨by rw [← assemble_fields cw, hop, hz, hl, encode], rfl⟩
    · exact ⟨by rw [encode, ← hop, ← hz, assemble_fields], by simpa [Instr.wellFormed] using hl⟩
    · exact ⟨by rw [← assemble_fields cw, hop, hz, hl, encode], rfl⟩
  · rintro ⟨rfl, hw⟩
    cases i with
    | init => rfl
    | update len =>
      have hl : len.toNat ≤ 64 := by simpa [Instr.wellFormed] using hw
      simp [encode, decode, opField_assemble, zeroField_assemble, lenField_assemble, hl]
    | finalize => rfl

/-- Settles O1, by the equivalence of decoding to a command and being its encoding. -/
theorem decodeOfEncode : Obligations.DecodeOfEncode :=
  fun i hw => (decode_eq_ok_iff (encode i) i).mpr ⟨rfl, hw⟩

/-- Settles O2, by the same equivalence. -/
theorem encodeOfDecode : Obligations.EncodeOfDecode :=
  fun cw i => (decode_eq_ok_iff cw i).mp

theorem encode_update_toNat (len : BitVec 7) : (encode (.update len)).toNat = 0x2000 + len.toNat := by
  rw [commandWord_toNat, encode, opField_assemble, zeroField_assemble, lenField_assemble]; rfl

/-- The 67 legal words of 30_encoding.md R98 are the encodings of the well-formed commands. -/
theorem not_illegalWord_iff (cw : BitVec 16) : ¬ illegalWord cw ↔ ∃ i : Instr, encode i = cw ∧ i.wellFormed = true := by
  rw [illegalWord, not_not]
  constructor
  · rintro (rfl | ⟨hlo, hhi⟩ | rfl)
    · exact ⟨.init, rfl, rfl⟩
    · have hlo' : 0x2000 ≤ cw.toNat := hlo
      have hhi' : cw.toNat ≤ 0x2040 := hhi
      have hlen : (BitVec.ofNat 7 (cw.toNat - 0x2000)).toNat = cw.toNat - 0x2000 := by simp; omega
      refine ⟨.update (BitVec.ofNat 7 (cw.toNat - 0x2000)), BitVec.eq_of_toNat_eq ?_, ?_⟩
      · rw [encode_update_toNat, hlen]; omega
      · simp only [Instr.wellFormed, hlen, decide_eq_true_eq]; omega
    · exact ⟨.finalize, rfl, rfl⟩
  · rintro ⟨i, rfl, hw⟩
    cases i with
    | init => exact .inl rfl
    | update len =>
      have hl : len.toNat ≤ 64 := by simpa [Instr.wellFormed] using hw
      simp only [BitVec.le_def, encode_update_toNat]
      exact .inr (.inl ⟨Nat.le_add_right _ _, Nat.add_le_add_left hl 0x2000⟩)
    | finalize => exact .inr (.inr rfl)

/-- Settles O4: the legal words by their encodings, the classes by the answers of the decoder. -/
theorem legalWordsAndClasses : Obligations.LegalWordsAndClasses := by
  intro cw
  rw [not_illegalWord_iff, reservedOp_iff, commandOp_iff]
  refine ⟨exists_congr (decode_eq_ok_iff cw), ?_⟩
  obtain ⟨hd, hop, hz, hl⟩ | ⟨hd, hop, hz, hl⟩ | ⟨hd, hop, hz, hl⟩ | ⟨hd, h1, h2, h3⟩ | ⟨hd, hop, hz⟩ |
    ⟨hd, hop, hz, hl⟩ | ⟨hd, hop, hz, hl⟩ := decode_cases cw
  · simp [hd, hop, hz, hl]
  · simp [hd, hop, hz]; omega
  · simp [hd, hop, hz, hl]
  · simp [hd, h1, h2, h3]
  · rcases hop with hop | hop | hop <;> simp [hd, hop, hz]
  · rcases hop with hop | hop <;> simp [hd, hop, hz, hl]
  · simp [hd, hop, hz]; omega

/-- Settles O3, one case for each answer of the decoder. -/
theorem decodeIsTheTotalProcedure : Obligations.DecodeIsTheTotalProcedure := by
  intro cw
  change _ = if zeroField cw ≠ 0#5 then (none : Option Instr)
    else if opField cw = 1#4 ∧ lenField cw = 0#7 then some .init
    else if opField cw = 2#4 ∧ lenField cw ≤ 64#7 then some (.update (lenField cw))
    else if opField cw = 3#4 ∧ lenField cw = 0#7 then some .finalize
    else none
  obtain ⟨hd, hop, hz, hl⟩ | ⟨hd, hop, hz, hl⟩ | ⟨hd, hop, hz, hl⟩ | ⟨hd, h1, h2, h3⟩ | ⟨hd, hop, hz⟩ |
    ⟨hd, hop, hz, hl⟩ | ⟨hd, hop, hz, hl⟩ := decode_cases cw
  · simp [hd, hop, hz, hl]
  · simp [hd, hop, hz, hl, BitVec.le_def]
  · simp [hd, hop, hz, hl]
  · simp [hd, h1, h2, h3]
  · simp [hd, hz]
  · rcases hop with hop | hop <;> simp [hd, hop, hz, hl]
  · simp [hd, hop, hz, hl, BitVec.le_def]

/-- Settles O5: the legal words are the encodings of the commands named, each refused word is read field by field. -/
theorem sampleWordsDecode : Obligations.SampleWordsDecode :=
  ⟨decodeOfEncode .init rfl, decodeOfEncode (.update 0) rfl, decodeOfEncode (.update 3) rfl,
    decodeOfEncode (.update 64) rfl, decodeOfEncode .finalize rfl, by decide⟩

/-! ### The step, one equation per host action (30_encoding.md R91, 70_reset_and_hazards.md R265) -/

theorem step_nothing {s : State} (h : s.hostActions = []) : step s = .next (idle s) := by
  unfold step; rw [h]

theorem step_idle {s : State} {rest : List HostAction} (h : s.hostActions = .idle :: rest) :
    step s = .next (idle { s with hostActions := rest }) := by
  unfold step; rw [h]

theorem step_busy {s : State} {cw : BitVec 16} {data : BitVec 512} {rest : List HostAction} (hr : s.cmdReady = false)
    (h : s.hostActions = .command cw data :: rest) : step s = .next (idle s) := by
  unfold step; rw [h]; simp [hr]

theorem step_transfer {s : State} {cw : BitVec 16} {data : BitVec 512} {rest : List HostAction} (hr : s.cmdReady = true)
    (h : s.hostActions = .command cw data :: rest) :
    step s = runCommand (transfer cw data { s with hostActions := rest }) := by
  unfold step; rw [h]; simp [hr]

theorem runCommand_legal {s : State} {i : Instr} (h : decode s.cmdWord = .ok i) : runCommand s = exec i s := by
  unfold runCommand; rw [h]

theorem runCommand_illegal {s : State} {e : IllegalWord} (h : decode s.cmdWord = .error e) :
    runCommand s = .next (raise .illegalCommand s) := by
  unfold runCommand; rw [h]

/-- Settles O6: the transfer puts the word on the port, and what is on the port is decoded. -/
theorem stepRunsDecodedCommand : Obligations.StepRunsDecodedCommand :=
  fun _ _ _ _ _ hr h hd => (step_transfer hr h).trans (runCommand_legal hd)

/-- Settles O8, one equation of the step for each clause. -/
theorem idleHoldsAndBusyDoesNotTransfer : Obligations.IdleHoldsAndBusyDoesNotTransfer :=
  ⟨fun _ h => step_nothing h, fun _ _ h => step_idle h, fun _ _ _ _ hr h => step_busy hr h⟩

/-! ### Every command responds -/

/-- A command that gives a next state has responded, and is consumed by the step, not by the command. -/
theorem exec_frame {i : Instr} {s t : State} (h : exec i s = .next t) :
    (∃ code, t.rsp = some code) ∧ t.cmdReady = true ∧ t.hostActions = s.hostActions := by
  obtain ⟨-, rfl⟩ | ⟨len, -, hl, -, hu, rfl⟩ | ⟨-, -, hu, rfl⟩ | ⟨c, rfl, -⟩ := exec_cases h
  · exact ⟨⟨_, rfl⟩, rfl, rfl⟩
  · obtain ⟨-, -, -, -, -, -, hactions⟩ := updateBeat_keep (beatBytes len.toNat s.cmdData) s hu (by simpa using hl)
    exact ⟨⟨_, rfl⟩, rfl, hactions⟩
  · obtain ⟨-, -, -, hactions, -⟩ := finalizeContext_keep s hu
    exact ⟨⟨_, rfl⟩, rfl, by rw [respond_hostActions, releaseContext_hostActions, hactions]⟩
  · exact ⟨⟨_, rfl⟩, rfl, rfl⟩

/-- With an occupancy below 64 in ACTIVE no command stops. -/
theorem exec_total (i : Instr) {s : State} (h : s.phase = .active → s.bufferUsed.toNat < 64) :
    ∃ t, exec i s = .next t := by
  cases i with
  | init => exact ⟨_, exec_init_eq s⟩
  | update len =>
    by_cases hl : len.toNat ≤ 64
    · by_cases hp : s.phase = .active
      · exact ⟨_, exec_update_eq s len hp (h hp) hl⟩
      · exact ⟨_, exec_update_refused s len hp hl⟩
    · exact ⟨_, exec_update_overlong s len (by omega)⟩
  | finalize =>
    by_cases hp : s.phase = .active
    · exact ⟨_, exec_finalize_eq s hp (h hp)⟩
    · exact ⟨_, exec_finalize_refused s hp⟩

theorem runCommand_responds {s : State} (h : s.phase = .active → s.bufferUsed.toNat < 64) :
    ∃ t code, runCommand s = .next t ∧ t.rsp = some code ∧ t.cmdReady = true ∧ t.hostActions = s.hostActions := by
  cases hd : decode s.cmdWord with
  | ok i =>
    obtain ⟨t, ht⟩ := exec_total i h
    obtain ⟨⟨code, hcode⟩, hready, hactions⟩ := exec_frame ht
    exact ⟨t, code, (runCommand_legal hd).trans ht, hcode, hready, hactions⟩
  | error e => exact ⟨_, _, runCommand_illegal hd, rfl, rfl, rfl⟩

/-- Settles O11: a legal word runs its command, which never stops under the invariant, an illegal one is refused. -/
theorem everyCommandResponds : Obligations.EveryCommandResponds := by
  intro s cw data rest hs h
  obtain ⟨hr, hctx⟩ := (inv_iff_contextInv s).mp hs
  rw [step_transfer hr h]
  exact runCommand_responds fun hp => ((hctx.at_transfer cw data rest).1 hp).1

/-! ### The lanes a command does not use (30_encoding.md R100) -/

/-- The state with `cmd_data` set to a given value. -/
def State.withData (s : State) (d : BitVec 512) : State := { s with cmdData := d }

/-- What a command gives, with `cmd_data` of the next state set to a given value. -/
def outcomeWithData (d : BitVec 512) : Host.Outcome State Fault Refusal → Host.Outcome State Fault Refusal
  | .next t => .next (t.withData d)
  | .fault r => .fault r
  | .refused r => .refused r

@[simp] theorem withData_phase (s : State) (d : BitVec 512) : (s.withData d).phase = s.phase := rfl
@[simp] theorem withData_bufferUsed (s : State) (d : BitVec 512) : (s.withData d).bufferUsed = s.bufferUsed := rfl
@[simp] theorem withData_totalLength (s : State) (d : BitVec 512) : (s.withData d).totalLength = s.totalLength := rfl
@[simp] theorem withData_pos (s : State) (d : BitVec 512) : (s.withData d).pos = s.pos := rfl
@[simp] theorem withData_cmdData (s : State) (d : BitVec 512) : (s.withData d).cmdData = d := rfl

theorem withData_withPos (s : State) (d : BitVec 512) (p : BitVec 7) :
    { s.withData d with pos := p } = State.withData { s with pos := p } d := rfl

/-- Storing bytes does not look at the port. -/
theorem bufPuts_withData (bs : List Byte) (s : State) (d : BitVec 512) :
    bufPuts bs (s.withData d) = (bufPuts bs s).withData d := by
  induction bs generalizing s with
  | nil => rfl
  | cons b bs ih => exact ih (bufPut b s)

theorem bufFlush_withData (s : State) (d : BitVec 512) : bufFlush (s.withData d) = (bufFlush s).withData d := rfl

theorem blkDirect_withData (B : Block) (s : State) (d : BitVec 512) :
    blkDirect B (s.withData d) = (blkDirect B s).withData d := rfl

theorem lenAdd_withData (n : Nat) (s : State) (d : BitVec 512) :
    lenAdd n (s.withData d) = (lenAdd n s).withData d := rfl

theorem padLatch_withData (s : State) (d : BitVec 512) : padLatch (s.withData d) = (padLatch s).withData d := rfl

theorem dgSerialize_withData (s : State) (d : BitVec 512) :
    dgSerialize (s.withData d) = (dgSerialize s).withData d := rfl

theorem releaseContext_withData (s : State) (d : BitVec 512) :
    releaseContext (s.withData d) = (releaseContext s).withData d := rfl

/-- A beat reads the bytes it is given, not the port: in each of the three shapes of 41_padding_buffer.md R159. -/
theorem updateBeat_withData (bs : List Byte) (s : State) (d : BitVec 512) (hu : s.bufferUsed.toNat < 64)
    (hb : bs.length ≤ 64) : updateBeat bs (s.withData d) = (updateBeat bs s).withData d := by
  by_cases hstore : s.bufferUsed.toNat + bs.length < 64
  · rw [updateBeat_stores bs s hstore, updateBeat_stores bs (s.withData d) hstore, withData_pos, withData_withPos,
      bufPuts_withData, lenAdd_withData]
  have hfull : 64 ≤ s.bufferUsed.toNat + bs.length := by omega
  by_cases hpart : 0 < s.bufferUsed.toNat
  · rw [updateBeat_completes bs s hpart hu hfull hb, updateBeat_completes bs (s.withData d) hpart hu hfull hb,
      withData_bufferUsed, bufPuts_withData, bufFlush_withData, withData_withPos, bufPuts_withData, lenAdd_withData]
  · have hempty : s.bufferUsed.toNat = 0 := by omega
    have hblock : bs.length = 64 := by omega
    rw [updateBeat_bypasses bs s hempty hblock, updateBeat_bypasses bs (s.withData d) hempty hblock, withData_withPos,
      blkDirect_withData, withData_withPos, lenAdd_withData]

/-- FINALIZE does not look at the port: with the length field in the last block or in a block of its own. -/
theorem finalizeContext_withData (s : State) (d : BitVec 512) (hu : s.bufferUsed.toNat < 64) :
    finalizeContext (s.withData d) = (finalizeContext s).withData d := by
  by_cases h : s.bufferUsed.toNat ≤ 55
  · rw [finalizeContext_short s h, finalizeContext_short (s.withData d) h, padLatch_withData, bufPuts_withData,
      bufFlush_withData, dgSerialize_withData, withData_bufferUsed, withData_totalLength]
  · have hlong : 56 ≤ s.bufferUsed.toNat := by omega
    rw [finalizeContext_long s hlong hu, finalizeContext_long (s.withData d) hlong hu, padLatch_withData,
      bufPuts_withData, bufFlush_withData, bufPuts_withData, bufFlush_withData, dgSerialize_withData,
      withData_bufferUsed, withData_totalLength]

/-- A command whose used lanes stay does the same under another `cmd_data`. -/
theorem exec_withData (i : Instr) (s : State) (d : BitVec 512)
    (h : ∀ len, i = .update len → beatBytes len.toNat d = beatBytes len.toNat s.cmdData) :
    exec i (s.withData d) = outcomeWithData d (exec i s) := by
  cases i with
  | init => rfl
  | update len =>
    change execUpdate len _ = outcomeWithData d (execUpdate len s)
    rw [execUpdate, execUpdate, withData_phase, withData_bufferUsed, withData_cmdData, h len rfl]
    split_ifs
    · rfl
    · rfl
    · rfl
    · rw [updateBeat_withData _ s d (by omega) (by simp; omega)]; rfl
  | finalize =>
    change execFinalize _ = outcomeWithData d (execFinalize s)
    rw [execFinalize, execFinalize, withData_phase, withData_bufferUsed]
    split_ifs
    · rfl
    · rfl
    · rw [finalizeContext_withData s d (by omega), releaseContext_withData]; rfl

/-- Settles O20: the command reads the data through the bytes of its beat only. -/
theorem unusedLanesAreIgnored : Obligations.UnusedLanesAreIgnored := by
  intro s d d' i hlanes
  have hexec : exec i (s.withData d') = outcomeWithData d' (exec i (s.withData d)) := by
    refine exec_withData i (s.withData d) d' fun len hi => ?_
    subst hi
    exact beatBytes_congr fun k hk => (hlanes k hk).symm
  exact ⟨fun t h => hexec.trans (congrArg _ h), fun r h => hexec.trans (congrArg _ h)⟩

/-! ### What a beat does to the hash and the held bytes (40_context_commands.md R121) -/

/-- A beat that does not fill the block leaves `H` and appends to the held bytes. -/
theorem updateBeat_context_stores (d : List Byte) (s : State) (h : s.bufferUsed.toNat + d.length < 64) :
    (updateBeat d s).H = s.H ∧ (updateBeat d s).held = s.held ++ d := by
  rw [updateBeat_stores d s h, lenAdd_H, lenAdd_held, bufPuts_held _ _ (by simp; omega)]
  exact ⟨(bufPuts_keep d _ (by simp; omega)).1, rfl⟩

/-- A beat that fills the block compresses the first 64 of the held bytes and its own, and holds the others. -/
theorem updateBeat_context_compresses (d : List Byte) (s : State) (hu : s.bufferUsed.toNat < 64) (hd : d.length ≤ 64)
    (h : 64 ≤ s.bufferUsed.toNat + d.length) :
    (updateBeat d s).H = compress s.H (blockOf (s.held ++ d)) ∧ (updateBeat d s).held = (s.held ++ d).drop 64 := by
  have hheld := held_length_of_lt s hu
  by_cases hpart : 0 < s.bufferUsed.toNat
  · have htake : (d.take (64 - s.bufferUsed.toNat)).length = 64 - s.bufferUsed.toNat := by simp; omega
    have hblock : blockOf (s.held ++ d.take (64 - s.bufferUsed.toNat)) = blockOf (s.held ++ d) := by
      rw [← blockOf_take (s.held ++ d) 64 le_rfl, List.take_append, hheld,
        List.take_of_length_le (l := s.held) (by omega)]
    rw [updateBeat_completes d s hpart hu h hd, lenAdd_H, lenAdd_held, bufPuts_held _ _ (by simp; omega)]
    refine ⟨?_, ?_⟩
    · rw [(bufPuts_keep _ _ (by simp; omega)).1]
      change (bufFlush _).H = _
      rw [bufFlush_H_eq_compress, bufFlush_bufPuts_buffer _ _ (by omega), hblock,
        (bufPuts_keep _ s (by omega)).1]
    · rw [held_of_used_zero _ (by simp), List.nil_append, List.drop_append, hheld,
        List.drop_of_length_le (l := s.held) (by omega), List.nil_append]
  · have hlen : d.length = 64 := by omega
    have hnil : s.held = [] := held_of_used_zero s (by omega)
    rw [updateBeat_bypasses d s (by omega) hlen, hnil, List.nil_append, List.drop_of_length_le hlen.le]
    exact ⟨compressBlock_H_eq_compress (blockOf d) { s with pos := 0 }, hnil⟩

/-! ### What a unit in ACTIVE has absorbed (10_state.md R25) -/

theorem Absorbed.at_transfer {x : List Byte} {s : State} (h : Absorbed x s) (cw : BitVec 16) (data : BitVec 512)
    (rest : List HostAction) : Absorbed x (transfer cw data { s with hostActions := rest }) :=
  ⟨h.phase_active, h.hash, h.total, h.used, h.tail⟩

theorem Absorbed.after_respond {x : List Byte} {s : State} (h : Absorbed x s) (code : RspCode) :
    Absorbed x (respond code s) :=
  ⟨h.phase_active, h.hash, h.total, h.used, h.tail⟩

theorem Absorbed.used_lt {x : List Byte} {s : State} (h : Absorbed x s) : s.bufferUsed.toNat < 64 := by
  have := h.used; omega

/-- INIT starts the empty message. -/
theorem absorbed_init (s : State) :
    Absorbed [] { s with H := IV, totalLength := 0, bufferUsed := 0, phase := .active } :=
  ⟨rfl, rfl, rfl, rfl, rfl⟩

/-- The complete blocks of a message and the bytes after them, when more follow. -/
theorem drop_blocks_append (x d : List Byte) :
    (x ++ d).drop (64 * (x.length / 64)) = x.drop (64 * (x.length / 64)) ++ d :=
  List.drop_append_of_le_length (Nat.mul_div_le _ _)

/-- The first `x.length / 64 + k` blocks of a message that starts with `x`: those of `x`, then `k` from the bytes `x`
leaves over and what follows. -/
theorem blocksOf_append_add (x d : List Byte) (k : Nat) :
    blocksOf (x.length / 64 + k) (x ++ d) =
      blocksOf (x.length / 64) x ++ blocksOf k (x.drop (64 * (x.length / 64)) ++ d) := by
  rw [blocksOf_add, blocksOf_append _ x d (Nat.mul_div_le _ _), drop_blocks_append]

/-- A beat is absorbed: the bytes held before it and its own make the next block, or are held. -/
theorem Absorbed.after_updateBeat {x : List Byte} {s : State} (h : Absorbed x s) (d : List Byte) (hd : d.length ≤ 64) :
    Absorbed (x ++ d) (updateBeat d s) := by
  have hu := h.used_lt
  obtain ⟨hused, htotal⟩ := updateBeat_counters d s hu hd
  have hlen : (x ++ d).length = x.length + d.length := List.length_append
  have hphase : (updateBeat d s).phase = .active := (updateBeat_keep d s hu hd).1.trans h.phase_active
  have htotal' : (updateBeat d s).totalLength = BitVec.ofNat 64 (x ++ d).length := by
    rw [htotal, h.total, hlen, BitVec.ofNat_add]
  have hused' : (updateBeat d s).bufferUsed.toNat = (x ++ d).length % 64 := by
    rw [hused, h.used, hlen, Nat.mod_add_mod]
  have hsplit := h.used
  by_cases hstore : s.bufferUsed.toNat + d.length < 64
  · obtain ⟨hH, hheld⟩ := updateBeat_context_stores d s hstore
    have hq : (x ++ d).length / 64 = x.length / 64 := by omega
    refine ⟨hphase, ?_, htotal', hused', ?_⟩
    · rw [hH, hq, blocksOf_append _ x d (Nat.mul_div_le _ _), h.hash]
    · rw [hheld, hq, drop_blocks_append, h.tail]
  · obtain ⟨hH, hheld⟩ := updateBeat_context_compresses d s hu hd (by omega)
    have hq : (x ++ d).length / 64 = x.length / 64 + 1 := by omega
    refine ⟨hphase, ?_, htotal', hused', ?_⟩
    · rw [hH, hq, blocksOf_append_add, hashBlocks_append, ← h.hash, ← h.tail]; rfl
    · rw [hheld, hq, h.tail, Nat.mul_add, ← List.drop_drop, drop_blocks_append]

/-! ### FINALIZE pads and hashes what was absorbed (40_context_commands.md R124, R132) -/

/-- What `pad` puts after a message of `L` bytes. -/
def padding (L : Nat) : List Byte :=
  0x80 :: List.replicate (padZeros L) 0x00 ++ bytesBE 8 (BitVec.ofNat 64 (8 * L))

theorem padMessage_eq (x : List Byte) : padMessage x = x ++ padding x.length := by
  simp [padMessage, padding]

/-- `H` after all blocks of the padded message, the state whose bytes are `SHA256(x)`. -/
def paddedHash (x : List Byte) : Words8 := hashBlocks IV (blocksOf ((padMessage x).length / 64) (padMessage x))

theorem sha256_eq (x : List Byte) : sha256 x = serialize (paddedHash x) := rfl

/-- The latched bit length is the one of the padding, modulo 2^64 on both sides. -/
theorem ofNat_shiftLeft_three (L : Nat) : BitVec.ofNat 64 L <<< 3 = BitVec.ofNat 64 (8 * L) := by
  apply BitVec.eq_of_toNat_eq
  simp only [BitVec.toNat_shiftLeft, BitVec.toNat_ofNat, Nat.shiftLeft_eq]
  omega

/-- FINALIZE folds `COMPRESS` over the blocks of the held bytes and the padding. -/
theorem finalizeContext_H_eq_hashBlocks (s : State) (L : Nat) (hused : s.bufferUsed.toNat = L % 64)
    (htotal : s.totalLength = BitVec.ofNat 64 L) :
    (finalizeContext s).H = hashBlocks s.H (blocksOf ((s.held ++ padding L).length / 64) (s.held ++ padding L)) := by
  have hu : s.bufferUsed.toNat < 64 := by omega
  have hheld := held_length_of_lt s hu
  by_cases hshort : s.bufferUsed.toNat ≤ 55
  · have hz : padZeros L = 55 - s.bufferUsed.toNat := by unfold padZeros; omega
    have hcount : (s.held ++ padding L).length / 64 = 1 := by simp [padding, hz, hheld]; omega
    rw [finalizeContext_short s hshort, dgSerialize_H, bufFlush_H_eq_compress,
      bufFlush_bufPuts_buffer _ _ (by simp; omega), (bufPuts_keep _ _ (by simp; omega)).1, htotal,
      ofNat_shiftLeft_three, hcount, padding, hz]
    rfl
  · have hz : padZeros L = (63 - s.bufferUsed.toNat) + 56 := by unfold padZeros; omega
    have hcount : (s.held ++ padding L).length / 64 = 2 := by simp [padding, hz, hheld]; omega
    have hfirst : (s.held ++ (0x80 : Byte) :: List.replicate (63 - s.bufferUsed.toNat) 0x00).length = 64 := by
      simp [hheld]; omega
    have hsplit : s.held ++ padding L =
        (s.held ++ (0x80 : Byte) :: List.replicate (63 - s.bufferUsed.toNat) 0x00) ++
          (List.replicate 56 0x00 ++ bytesBE 8 (BitVec.ofNat 64 (8 * L))) := by
      simp [padding, hz, List.replicate_add]
    rw [finalizeContext_long s (by omega) hu, dgSerialize_H, bufFlush_H_eq_compress,
      bufFlush_bufPuts_buffer _ _ (by simp), (bufPuts_keep _ _ (by simp)).1, bufFlush_H_eq_compress,
      bufFlush_bufPuts_buffer _ (padLatch s) (by simp; omega), (bufPuts_keep _ (padLatch s) (by simp; omega)).1,
      held_of_used_zero (bufFlush _) (by simp), htotal, ofNat_shiftLeft_three, hcount, hsplit, blocksOf, blocksOf,
      blockOf_append _ _ hfirst.ge, List.drop_left' hfirst]
    rfl

/-- FINALIZE after absorbing `x`. -/
theorem Absorbed.finalizeContext_H {x : List Byte} {s : State} (h : Absorbed x s) :
    (finalizeContext s).H = paddedHash x := by
  have hcount : (padMessage x).length / 64 = x.length / 64 + (s.held ++ padding x.length).length / 64 := by
    rw [padMessage_eq, h.tail]
    simp only [List.length_append, List.length_drop]
    omega
  rw [finalizeContext_H_eq_hashBlocks s x.length h.used h.total, h.hash, ← hashBlocks_append, paddedHash, hcount,
    padMessage_eq, blocksOf_append_add, h.tail]

/-! ### Runs of commands -/

/-- Runs compose. -/
theorem runSteps_add {m : Nat} {s t : State} (h : runSteps m s = .next t) (n : Nat) :
    runSteps (m + n) s = runSteps n t := by
  induction m generalizing s with
  | zero => cases h; rw [Nat.zero_add]
  | succ m ih =>
    rw [Nat.add_right_comm, runSteps]
    rw [runSteps] at h
    cases hs : step s with
    | next u => rw [hs] at h; exact ih h
    | fault r => rw [hs] at h; cases h
    | refused r => rw [hs] at h; cases h

theorem runSteps_one {s t : State} (h : step s = .next t) : runSteps 1 s = .next t := by
  simp only [runSteps, h]

/-- The unit is ready for what the host does next, with `fault` as it was in `s`. -/
structure ReadyAfter (s t : State) (rest : List HostAction) : Prop where
  ready : t.cmdReady = true
  fault : t.fault = s.fault
  actions : t.hostActions = rest

theorem ReadyAfter.trans {s t u : State} {rest rest' : List HostAction} (h : ReadyAfter s t rest)
    (h' : ReadyAfter t u rest') : ReadyAfter s u rest' :=
  ⟨h'.ready, h'.fault.trans h.fault, h'.actions⟩

/-- A presented command that its execution accepts. -/
theorem step_accepts {s t : State} {i : Instr} {data : BitVec 512} {rest : List HostAction} (hr : s.cmdReady = true)
    (ha : s.hostActions = .command (encode i) data :: rest) (hw : i.wellFormed = true)
    (hexec : exec i (transfer (encode i) data { s with hostActions := rest }) = .next t) (hok : t.rsp = some .ok) :
    step s = .next t ∧ ReadyAfter s t rest := by
  obtain ⟨-, hready, hactions⟩ := exec_frame hexec
  have hfault := exec_fault hexec
  rw [if_pos hok] at hfault
  exact ⟨(stepRunsDecodedCommand s _ data rest i hr ha (decodeOfEncode i hw)).trans hexec, hready, hfault, hactions⟩

theorem step_init_absorbed {s : State} {data : BitVec 512} {rest : List HostAction} (hr : s.cmdReady = true)
    (ha : s.hostActions = initAction data :: rest) :
    ∃ t, step s = .next t ∧ Absorbed [] t ∧ ReadyAfter s t rest := by
  obtain ⟨hstep, hready⟩ := step_accepts hr ha rfl (exec_init_eq _) rfl
  exact ⟨_, hstep, (absorbed_init _).after_respond _, hready⟩

theorem step_update_absorbed {s : State} {x : List Byte} {len : BitVec 7} {data : BitVec 512} {rest : List HostAction}
    (hr : s.cmdReady = true) (hx : Absorbed x s) (hl : len.toNat ≤ 64)
    (ha : s.hostActions = updateAction len data :: rest) :
    ∃ t, step s = .next t ∧ Absorbed (x ++ beatBytes len.toNat data) t ∧ ReadyAfter s t rest := by
  have hx' := hx.at_transfer (encode (.update len)) data rest
  obtain ⟨hstep, hready⟩ := step_accepts hr ha (by simpa [Instr.wellFormed] using hl)
    (exec_update_eq _ len hx'.phase_active hx'.used_lt hl) rfl
  exact ⟨_, hstep, (hx'.after_updateBeat _ (by simpa using hl)).after_respond _, hready⟩

theorem step_finalize_digest {s : State} {x : List Byte} {data : BitVec 512} {rest : List HostAction}
    (hr : s.cmdReady = true) (hx : Absorbed x s) (ha : s.hostActions = finalizeAction data :: rest) :
    ∃ t, step s = .next t ∧ t.H = paddedHash x ∧ t.DG = sha256 x ∧ t.phase = .finalized ∧ t.rsp = some .ok ∧
      ReadyAfter s t rest := by
  have hx' := hx.at_transfer (encode .finalize) data rest
  obtain ⟨hstep, hready⟩ := step_accepts hr ha rfl (exec_finalize_eq _ hx'.phase_active hx'.used_lt) rfl
  exact ⟨_, hstep, hx'.finalizeContext_H, (congrArg serialize hx'.finalizeContext_H).trans (sha256_eq x).symm, rfl, rfl,
    hready⟩

/-- A run over legal beats absorbs the message they carry. -/
theorem runSteps_beats (beats : List (BitVec 7 × BitVec 512)) {s : State} {x : List Byte} {rest : List HostAction}
    (hr : s.cmdReady = true) (hx : Absorbed x s) (hlegal : LegalBeats beats)
    (ha : s.hostActions = beats.map (fun b => updateAction b.1 b.2) ++ rest) :
    ∃ t, runSteps beats.length s = .next t ∧ Absorbed (x ++ messageOf beats) t ∧ ReadyAfter s t rest := by
  induction beats generalizing s x with
  | nil => exact ⟨s, rfl, by simpa [messageOf] using hx, hr, rfl, ha⟩
  | cons b beats ih =>
    obtain ⟨u, hstep, hu, hsu⟩ := step_update_absorbed hr hx (hlegal b List.mem_cons_self) ha
    obtain ⟨t, hrun, ht, hut⟩ := ih hsu.ready hu (fun c hc => hlegal c (List.mem_cons_of_mem _ hc)) hsu.actions
    refine ⟨t, ?_, ?_, hsu.trans hut⟩
    · rw [List.length_cons, Nat.add_comm, runSteps_add (runSteps_one hstep), hrun]
    · rwa [List.append_assoc] at ht

/-- INIT, legal beats, FINALIZE from any ready state: the hash of the padded message and its bytes in `DG`. For 2^61 bytes
or more the length field of `sha256` wraps as `bitlen` does (log 12), so there is no premise on the length. -/
theorem runSteps_message {s : State} {d0 d1 : BitVec 512} {beats : List (BitVec 7 × BitVec 512)}
    {rest : List HostAction} (hr : s.cmdReady = true) (hlegal : LegalBeats beats)
    (ha : s.hostActions = messageActions d0 beats d1 ++ rest) :
    ∃ t, runSteps (beats.length + 2) s = .next t ∧ t.H = paddedHash (messageOf beats) ∧
      t.DG = sha256 (messageOf beats) ∧ t.phase = .finalized ∧ t.rsp = some .ok ∧ ReadyAfter s t rest := by
  have ha' : s.hostActions =
      initAction d0 :: (beats.map (fun b => updateAction b.1 b.2) ++ finalizeAction d1 :: rest) := by
    simpa [messageActions] using ha
  obtain ⟨u, hinit, hu, hsu⟩ := step_init_absorbed hr ha'
  obtain ⟨v, hbeats, hv, huv⟩ := runSteps_beats beats hsu.ready hu hlegal hsu.actions
  obtain ⟨t, hfin, hH, hDG, hphase, hrsp, hvt⟩ := step_finalize_digest huv.ready hv huv.actions
  refine ⟨t, ?_, hH, hDG, hphase, hrsp, (hsu.trans huv).trans hvt⟩
  rw [show beats.length + 2 = 1 + (beats.length + 1) by omega, runSteps_add (runSteps_one hinit), runSteps_add hbeats,
    runSteps_one hfin]

/-! ### CALCULATE (30_encoding.md R105, R106) -/

/-- The beat `(len, cmd_data)` that carries at most 64 given bytes. -/
def packBeat (bytes : List Byte) : BitVec 7 × BitVec 512 := (BitVec.ofNat 7 bytes.length, packLanes bytes)

theorem packBeat_len {bytes : List Byte} (h : bytes.length ≤ 64) : (packBeat bytes).1.toNat = bytes.length := by
  simp [packBeat]; omega

theorem beatBytes_packBeat {bytes : List Byte} (h : bytes.length ≤ 64) :
    beatBytes (packBeat bytes).1.toNat (packBeat bytes).2 = bytes := by
  rw [packBeat_len h]; exact beatBytes_packLanes bytes h

/-- How `UPDATE*` cuts its data. -/
def cutsOf (x : List Byte) : List (List Byte) := if x.length = 0 then [[]] else cutBeats ((x.length + 63) / 64) x

theorem updateStar_eq (x : List Byte) :
    updateStar x = ((cutsOf x).map packBeat).map fun b => updateAction b.1 b.2 := by
  rw [updateStar, cutsOf, List.map_map]
  split_ifs <;> rfl

theorem calculate_eq (x : List Byte) : calculate x = messageActions 0 ((cutsOf x).map packBeat) 0 := by
  rw [calculate, updateStar_eq, messageActions]

theorem cutBeats_length_le (count : Nat) (x : List Byte) : ∀ bytes ∈ cutBeats count x, bytes.length ≤ 64 := by
  induction count generalizing x with
  | zero => simp [cutBeats]
  | succ count ih => simpa [cutBeats] using ih (x.drop 64)

theorem cutBeats_flatten (count : Nat) (x : List Byte) (h : x.length ≤ 64 * count) : (cutBeats count x).flatten = x := by
  induction count generalizing x with
  | zero => exact (List.length_eq_zero_iff.mp (by omega)).symm
  | succ count ih => rw [cutBeats, List.flatten_cons, ih _ (by simp; omega), List.take_append_drop]

theorem cutsOf_length_le (x : List Byte) : ∀ bytes ∈ cutsOf x, bytes.length ≤ 64 := by
  unfold cutsOf
  split
  · simp
  · exact cutBeats_length_le _ x

theorem cutsOf_flatten (x : List Byte) : (cutsOf x).flatten = x := by
  unfold cutsOf
  split
  · next h => exact (List.length_eq_zero_iff.mp h).symm
  · exact cutBeats_flatten _ x (by omega)

theorem legalBeats_cutsOf (x : List Byte) : LegalBeats ((cutsOf x).map packBeat) := by
  intro b hb
  obtain ⟨bytes, hmem, rfl⟩ := List.mem_map.mp hb
  have hlen := cutsOf_length_le x bytes hmem
  exact (packBeat_len hlen).trans_le hlen

theorem messageOf_cutsOf (x : List Byte) : messageOf ((cutsOf x).map packBeat) = x := by
  have hbytes : ∀ bytes ∈ cutsOf x, beatBytes (packBeat bytes).1.toNat (packBeat bytes).2 = id bytes :=
    fun bytes hmem => beatBytes_packBeat (cutsOf_length_le x bytes hmem)
  rw [messageOf, List.flatMap_map, List.flatMap_congr hbytes, List.flatMap_id, cutsOf_flatten]

/-- Settles O57: the expansion is INIT, legal beats that carry the data, FINALIZE. -/
theorem calculateGivesSha256 : Obligations.CalculateGivesSha256 := by
  intro s x rest hr _ ha
  rw [calculate_eq] at ha ⊢
  obtain ⟨t, hrun, -, hDG, hphase, hrsp, hready⟩ := runSteps_message hr (legalBeats_cutsOf x) ha
  rw [messageOf_cutsOf] at hDG
  have hvalid : t.digestValid = true := by simp [State.digestValid, hphase]
  have hport : t.digestPort = digestBits (sha256 x) := by rw [State.digestPort, if_pos hvalid, hDG]
  refine ⟨t, ?_, hDG, hport, hvalid, hrsp, hready.fault, hready.actions⟩
  rw [← hrun, messageActions]
  simp

end Sys2Proof.Machine

/-! The context commands family (40_context_commands.md): the phase table, INIT, UPDATE, FINALIZE, the micro-sequences,
the cutting of data into beats, what a unit has absorbed, and the digest. -/

namespace Sys2Proof.Machine

/-! ### The phase table (40_context_commands.md R120, R121, R124; 60_exceptions.md R231, R234) -/

theorem step_reset {s : State} {rest : List HostAction} (h : s.hostActions = .reset :: rest) :
    step s = .next (resetEvent { s with hostActions := rest }) := by
  unfold step; rw [h]

theorem step_abortedCommand {s : State} {cw : BitVec 16} {data : BitVec 512} {rest : List HostAction}
    (h : s.hostActions = .abortedCommand cw data :: rest) :
    step s = .next (resetEvent (transfer cw data { s with hostActions := rest })) := by
  unfold step; rw [h]

/-- Outside ACTIVE every legal command but INIT is refused (60_exceptions.md R231). -/
theorem exec_refused {i : Instr} {s : State} (hi : i ≠ .init) (hw : i.wellFormed = true) (hp : s.phase ≠ .active) :
    exec i s = .next (raise .invalidContextState s) := by
  cases i with
  | init => exact absurd rfl hi
  | update len => exact exec_update_refused s len hp (by simpa [Instr.wellFormed] using hw)
  | finalize => exact exec_finalize_refused s hp

/-- The response to a legal command depends on the phase alone. -/
theorem exec_rsp {i : Instr} {s t : State} (hw : i.wellFormed = true) (h : exec i s = .next t) :
    t.rsp = some (if i = .init ∨ s.phase = .active then .ok else .invalidContextState) := by
  obtain ⟨rfl, rfl⟩ | ⟨len, rfl, -, hp, -, rfl⟩ | ⟨rfl, hp, -, rfl⟩ | ⟨c, rfl, hi, hc⟩ := exec_cases h
  · rfl
  · simp [hp]
  · simp [hp]
  · obtain ⟨rfl, hp⟩ := hc hw
    simp [hi, hp, FaultCause.code]

/-- The phase a legal command is in next: INIT enters ACTIVE, FINALIZE leaves it, an UPDATE keeps it. -/
def nextPhase : Instr → Phase → Phase
  | .init, _ => .active
  | .finalize, .active => .finalized
  | _, p => p

theorem nextPhase_of_not_active {i : Instr} {p : Phase} (hi : i ≠ .init) (hp : p ≠ .active) : nextPhase i p = p := by
  cases i with
  | init => exact absurd rfl hi
  | update len => rfl
  | finalize =>
    cases p with
    | active => exact absurd rfl hp
    | uninit => rfl
    | finalized => rfl

theorem exec_phase {i : Instr} {s t : State} (hw : i.wellFormed = true) (h : exec i s = .next t) :
    t.phase = nextPhase i s.phase := by
  obtain ⟨rfl, rfl⟩ | ⟨len, rfl, hl, hp, hu, rfl⟩ | ⟨rfl, hp, -, rfl⟩ | ⟨c, rfl, hi, hc⟩ := exec_cases h
  · rfl
  · exact (updateBeat_keep _ s hu (by simpa using hl)).1
  · rw [hp]; rfl
  · exact (nextPhase_of_not_active hi (hc hw).2).symm

/-- The words of R95 are those of the UPDATEs with a legal count. -/
theorem encode_update_of_range {cw : BitVec 16} (hlo : 0x2000#16 ≤ cw) (hhi : cw ≤ 0x2040#16) :
    ∃ len : BitVec 7, encode (.update len) = cw ∧ (Instr.update len).wellFormed = true := by
  obtain ⟨i, rfl, hw⟩ := (not_illegalWord_iff cw).mp (not_not_intro (.inr (.inl ⟨hlo, hhi⟩)))
  cases i with
  | init => exact absurd hlo (by decide)
  | update len => exact ⟨len, rfl, hw⟩
  | finalize => exact absurd hhi (by decide)

theorem decode_illegalWord {cw : BitVec 16} (h : illegalWord cw) : ∃ e, decode cw = .error e := by
  cases hd : decode cw with
  | ok i => exact absurd h ((not_illegalWord_iff cw).mpr ⟨i, (decode_eq_ok_iff cw i).mp hd⟩)
  | error e => exact ⟨e, rfl⟩

theorem step_legal {s : State} {i : Instr} {data : BitVec 512} {rest : List HostAction} (hr : s.cmdReady = true)
    (ha : s.hostActions = .command (encode i) data :: rest) (hw : i.wellFormed = true) :
    step s = exec i (transfer (encode i) data { s with hostActions := rest }) :=
  stepRunsDecodedCommand s _ data rest i hr ha (decodeOfEncode i hw)

theorem step_illegal {s : State} {cw : BitVec 16} {data : BitVec 512} {rest : List HostAction} (hr : s.cmdReady = true)
    (ha : s.hostActions = .command cw data :: rest) (hill : illegalWord cw) :
    step s = .next (raise .illegalCommand (transfer cw data { s with hostActions := rest })) := by
  obtain ⟨e, he⟩ := decode_illegalWord hill
  rw [step_transfer hr ha]
  exact runCommand_illegal (s := transfer cw data { s with hostActions := rest }) he

/-- A step that runs a legal command, by the two columns of the phase table of 70_reset_and_hazards.md R263. -/
theorem step_legal_phase {s t : State} {i : Instr} {data : BitVec 512} {rest : List HostAction}
    (hr : s.cmdReady = true) (ha : s.hostActions = .command (encode i) data :: rest) (hw : i.wellFormed = true)
    (h : step s = .next t) :
    t.phase = nextPhase i s.phase ∧
      t.rsp = some (if i = .init ∨ s.phase = .active then .ok else .invalidContextState) := by
  have hexec := (step_legal hr ha hw).symm.trans h
  have hphase := exec_phase hw hexec
  have hrsp := exec_rsp hw hexec
  exact ⟨hphase, hrsp⟩

/-- Settles O12: a legal word is the encoding of its command, an illegal one is refused, a reset enters UNINIT. -/
theorem phaseTransitions : Obligations.PhaseTransitions := by
  intro s cw data rest hs
  have hr : s.cmdReady = true := hs.1
  refine ⟨fun ha => ?_, fun ha => ⟨_, step_reset ha, rfl⟩⟩
  obtain ⟨t, -, ht, -⟩ := everyCommandResponds s cw data rest hs ha
  refine ⟨t, ht, ?_, ?_, ?_, ?_⟩
  · rintro rfl
    exact step_legal_phase (i := .init) hr ha rfl ht
  · intro hlo hhi
    obtain ⟨len, rfl, hw⟩ := encode_update_of_range hlo hhi
    simpa [nextPhase] using step_legal_phase hr ha hw ht
  · rintro rfl
    obtain ⟨hphase, hrsp⟩ := step_legal_phase (i := .finalize) hr ha rfl ht
    refine ⟨?_, by simpa using hrsp⟩
    rw [hphase]
    cases s.phase <;> rfl
  · intro hill
    rw [step_illegal hr ha hill] at ht
    cases ht
    exact ⟨rfl, rfl⟩

/-! ### INIT (40_context_commands.md R120) -/

theorem status_of_active {s : State} (h : s.phase = .active) :
    s.status = (if s.fault then 0b0101#4 else 0b0001#4) := by
  unfold State.status State.digestValid
  rw [h]
  cases s.fault <;> rfl

theorem digestValid_of_active {s : State} (h : s.phase = .active) : s.digestValid = false := by
  rw [State.digestValid, h]; rfl

theorem digestPort_of_active {s : State} (h : s.phase = .active) : s.digestPort = 0#256 := by
  rw [State.digestPort, digestValid_of_active h]; rfl

/-- Settles O13: the whole next state by the equation of INIT, the ports from the phase it enters. -/
theorem initResult : Obligations.InitResult :=
  fun s => ⟨_, exec_init_eq s, rfl, status_of_active rfl, digestValid_of_active rfl, digestPort_of_active rfl, rfl, rfl⟩

/-! ### UPDATE: the state after a beat (40_context_commands.md R121) -/

/-- Settles O14, from the counters after a beat. -/
theorem updateCompletesInActive : Obligations.UpdateCompletesInActive := by
  intro s len hp hu hl
  have hlen : (beatBytes len.toNat s.cmdData).length ≤ 64 := by simpa using hl
  obtain ⟨hused, htotal⟩ := updateBeat_counters _ s hu hlen
  obtain ⟨hphase, -⟩ := updateBeat_keep _ s hu hlen
  rw [beatBytes_length] at hused htotal
  rw [BitVec.ofNat_toNat] at htotal
  exact ⟨_, exec_update_eq s len hp hu hl, rfl, hphase.trans hp, hused, htotal⟩

/-- The buffer after a beat that completes no block (cases A and B of 41_padding_buffer.md R159). -/
theorem updateBeat_buffer_stores (d : List Byte) (s : State) (h : s.bufferUsed.toNat + d.length < 64) {j : Nat}
    (hj : j < 64) :
    (updateBeat d s).buffer[j] =
      if s.bufferUsed.toNat ≤ j ∧ j < s.bufferUsed.toNat + d.length then d.getD (j - s.bufferUsed.toNat) 0
      else s.buffer[j] := by
  rw [updateBeat_stores d s h, lenAdd_buffer, bufPuts_eq _ _ (by simp; omega), writeBytes_getElem _ _ _ hj]

/-- The buffer after a beat that completes a partly filled one (case C): the bytes that completed the block stay where
the bytes after them do not overwrite them. -/
theorem updateBeat_buffer_completes (d : List Byte) (s : State) (hu : 0 < s.bufferUsed.toNat)
    (hu64 : s.bufferUsed.toNat < 64) (h : 64 ≤ s.bufferUsed.toNat + d.length) (hd : d.length ≤ 64) {j : Nat}
    (hj : j < 64) :
    (updateBeat d s).buffer[j] =
      if j < s.bufferUsed.toNat + d.length - 64 then d.getD (64 - s.bufferUsed.toNat + j) 0
      else if s.bufferUsed.toNat ≤ j then d.getD (j - s.bufferUsed.toNat) 0
      else s.buffer[j] := by
  rw [updateBeat_completes d s hu hu64 h hd, lenAdd_buffer, bufPuts_eq _ _ (by simp; omega),
    bufPuts_eq (d.take _) _ (by simp; omega), writeBytes_getElem _ _ _ hj]
  simp only [bufFlush_bufferUsed, bufFlush_buffer, writeBytes_getElem _ _ _ hj, List.length_drop, List.length_take]
  by_cases hnew : j < s.bufferUsed.toNat + d.length - 64
  · rw [if_pos hnew, if_pos (by simp; omega)]
    simp
  rw [if_neg hnew, if_neg (by simp; omega)]
  by_cases hblock : s.bufferUsed.toNat ≤ j
  · rw [if_pos hblock, if_pos (by omega)]
    simp [show j - s.bufferUsed.toNat < 64 - s.bufferUsed.toNat by omega]
  · rw [if_neg hblock, if_neg (by omega)]

/-- The bypass path does not write the buffer (case D). -/
theorem updateBeat_buffer_bypasses (d : List Byte) (s : State) (hu : s.bufferUsed.toNat = 0) (h : d.length = 64) :
    (updateBeat d s).buffer = s.buffer := by
  rw [updateBeat_bypasses d s hu h]; rfl

/-- A beat that completes no block does not run the compressor. -/
theorem updateBeat_comp_stores (d : List Byte) (s : State) (h : s.bufferUsed.toNat + d.length < 64) :
    (updateBeat d s).comp = s.comp := by
  rw [updateBeat_stores d s h, bufPuts_eq _ _ (by simp; omega)]; rfl

/-- The bytes that complete the block after the held ones: those that follow do not show in it. -/
theorem blockOf_held_append_take (d : List Byte) (s : State) (hu : s.bufferUsed.toNat < 64) :
    blockOf (s.held ++ d.take (64 - s.bufferUsed.toNat)) = blockOf (s.held ++ d) := by
  have hheld := held_length_of_lt s hu
  rw [← blockOf_take (s.held ++ d) 64 le_rfl, List.take_append, hheld, List.take_of_length_le (l := s.held) (by omega)]

/-- Settles O15: the bytes of the beat are its lanes. -/
theorem updateStoresTail : Obligations.UpdateStoresTail := by
  intro s len hp h
  have hstore : s.bufferUsed.toNat + (beatBytes len.toNat s.cmdData).length < 64 := by simpa using h
  refine ⟨_, exec_update_eq s len hp (by omega) (by omega), (updateBeat_context_stores _ s hstore).1, fun j hj => ?_⟩
  rw [respond_buffer, updateBeat_buffer_stores _ s hstore hj, beatBytes_length]
  split
  · exact beatBytes_getD _ _ _ (by omega)
  · rfl

/-- Settles O16: the block is the held bytes and the lanes that complete it. -/
theorem updateCompletesBlock : Obligations.UpdateCompletesBlock := by
  intro s len hp hu hu64 hl h
  have hlen : (beatBytes len.toNat s.cmdData).length = len.toNat := beatBytes_length _ _
  have hfull : 64 ≤ s.bufferUsed.toNat + (beatBytes len.toNat s.cmdData).length := by rwa [hlen]
  refine ⟨_, exec_update_eq s len hp hu64 hl, ?_, fun j hj => ?_⟩
  · obtain ⟨hH, -⟩ := updateBeat_context_compresses _ s hu64 (by rwa [hlen]) hfull
    rw [respond_H, hH, ← blockOf_held_append_take _ _ hu64, beatBytes_take _ _ _ (by omega)]
  · rw [respond_buffer, updateBeat_buffer_completes _ s hu hu64 hfull (by rwa [hlen]) hj, hlen]
    split
    · exact beatBytes_getD _ _ _ (by omega)
    split
    · exact beatBytes_getD _ _ _ (by omega)
    · rfl

/-- Settles O17, from case D of a beat. -/
theorem updateBypassesBuffer : Obligations.UpdateBypassesBuffer := by
  intro s hp hu
  have hused : s.bufferUsed.toNat = 0 := by rw [hu]; rfl
  refine ⟨_, exec_update_eq s 64 hp (by omega) le_rfl, ?_⟩
  rw [show (64 : BitVec 7).toNat = 64 from rfl, updateBeat_bypasses _ s hused (beatBytes_length _ _)]
  exact ⟨compressBlock_H_eq_compress _ _, rfl, hu, rfl⟩

/-- Settles O18: the registers no beat writes, then the buffer by the case of the beat. -/
theorem updateFrame : Obligations.UpdateFrame := by
  intro s t len hp hl h
  obtain ⟨hi, -⟩ | ⟨len', hi, -, -, hu, rfl⟩ | ⟨hi, -⟩ | ⟨c, -, -, hc⟩ := exec_cases h
  · cases hi
  · cases hi
    have hlen : (beatBytes len.toNat s.cmdData).length = len.toNat := beatBytes_length _ _
    obtain ⟨hphase, hfault, hDG, hbitlen, hword, hdata, hactions⟩ :=
      updateBeat_keep (beatBytes len.toNat s.cmdData) s hu (by rwa [hlen])
    refine ⟨hphase, hfault, hDG, hbitlen, hword, hdata, hactions, fun hstore => ?_, fun j hj => ⟨?_, ?_, ?_⟩⟩
    · exact ⟨(updateBeat_context_stores _ s (by rwa [hlen])).1, updateBeat_comp_stores _ s (by rwa [hlen])⟩
    · intro hstore hout
      rw [respond_buffer, updateBeat_buffer_stores _ s (by rwa [hlen]) hj, hlen, if_neg (by omega)]
    · intro hfull hlo hhi
      rw [respond_buffer, updateBeat_buffer_completes _ s (by omega) hu (by rwa [hlen]) (by rwa [hlen]) hj, hlen,
        if_neg (by omega), if_neg (by omega)]
    · intro hempty hblock
      rw [respond_buffer, updateBeat_buffer_bypasses _ s hempty (by rw [hlen, hblock])]
  · cases hi
  · exact absurd hp (hc (by simpa [Instr.wellFormed] using hl)).2

/-- Settles O19: the empty beat leaves the state, so only the response is new. -/
theorem emptyUpdateChangesNothing : Obligations.EmptyUpdateChangesNothing := by
  intro s hp hu
  rw [exec_update_eq s 0 hp hu (Nat.zero_le _)]
  exact congrArg (fun t => Host.Outcome.next (respond .ok t)) (updateBeat_empty s)

/-! ### The micro-sequences (41_padding_buffer.md R159, R160) -/

theorem runMicro_cons (op : MicroOp) (ops : List MicroOp) (s : State) :
    runMicro (op :: ops) s = runMicro ops (op.run s) := rfl

theorem runMicro_append (ops ops' : List MicroOp) (s : State) :
    runMicro (ops ++ ops') s = runMicro ops' (runMicro ops s) := by
  simp [runMicro]

theorem runMicro_putOps (bs : List Byte) (s : State) : runMicro (putOps bs) s = bufPuts bs s := by
  induction bs generalizing s with
  | nil => rfl
  | cons b bs ih => exact ih (bufPut b s)

/-- Cases A and B of R159: no block is completed. -/
theorem runMicro_updateMicro_stores (d : List Byte) (s : State) (h : s.bufferUsed.toNat + d.length < 64) :
    runMicro (updateMicro s.bufferUsed.toNat d) s = lenAdd d.length (bufPuts d s) := by
  by_cases hnil : d.length = 0
  · rw [updateMicro, if_pos hnil, List.eq_nil_of_length_eq_zero hnil]; rfl
  · rw [updateMicro, if_neg hnil, if_pos h, runMicro_append, runMicro_putOps]; rfl

/-- Case C of R159: a partly filled buffer is completed. -/
theorem runMicro_updateMicro_completes (d : List Byte) (s : State) (hu : 0 < s.bufferUsed.toNat)
    (h : 64 ≤ s.bufferUsed.toNat + d.length) (hd : d.length ≠ 0) :
    runMicro (updateMicro s.bufferUsed.toNat d) s =
      lenAdd d.length (bufPuts (d.drop (64 - s.bufferUsed.toNat))
        (bufFlush (bufPuts (d.take (64 - s.bufferUsed.toNat)) s))) := by
  rw [updateMicro, if_neg hd, if_neg (by omega), if_pos hu, runMicro_append, runMicro_putOps, runMicro_cons,
    runMicro_append, runMicro_putOps]
  rfl

/-- Case D of R159: a whole block at an empty buffer. -/
theorem runMicro_updateMicro_bypasses (d : List Byte) (s : State) (hu : s.bufferUsed.toNat = 0) (h : d.length = 64) :
    runMicro (updateMicro s.bufferUsed.toNat d) s = lenAdd 64 (blkDirect (blockOf d) s) := by
  rw [updateMicro, if_neg (by omega), if_neg (by omega), if_neg (by omega)]; rfl

/-- The rows of the table of R159 are the three shapes of a beat, up to `pos`, which the table does not mention. -/
theorem updateBeat_eq_runMicro (d : List Byte) (s : State) (hu : s.bufferUsed.toNat < 64) (hd : d.length ≤ 64) :
    ∃ p, updateBeat d s = { runMicro (updateMicro s.bufferUsed.toNat d) s with pos := p } := by
  by_cases hstore : s.bufferUsed.toNat + d.length < 64
  · rw [updateBeat_stores d s hstore, bufPuts_withPos, runMicro_updateMicro_stores d s hstore]
    exact ⟨_, rfl⟩
  by_cases hpart : 0 < s.bufferUsed.toNat
  · rw [updateBeat_completes d s hpart hu (by omega) hd, bufPuts_withPos,
      runMicro_updateMicro_completes d s hpart (by omega) (by omega)]
    exact ⟨_, rfl⟩
  · rw [updateBeat_bypasses d s (by omega) (by omega), runMicro_updateMicro_bypasses d s (by omega) (by omega)]
    exact ⟨_, rfl⟩

/-- An accepted beat is known when the state after it is known up to `pos`. -/
theorem exec_update_upTo_pos {s t : State} {len : BitVec 7} (hp : s.phase = .active) (hu : s.bufferUsed.toNat < 64)
    (hl : len.toNat ≤ 64) (h : ∃ p, updateBeat (beatBytes len.toNat s.cmdData) s = { t with pos := p }) :
    ∃ p, exec (.update len) s = .next { t with pos := p, rsp := some .ok, cmdReady := true } := by
  obtain ⟨p, h⟩ := h
  exact ⟨p, by rw [exec_update_eq s len hp hu hl, h]; rfl⟩

/-- Settles O21, row by row of the table. -/
theorem updateIsItsMicroSequence : Obligations.UpdateIsItsMicroSequence :=
  fun s _ hp hu hl => exec_update_upTo_pos hp hu hl (updateBeat_eq_runMicro _ s hu (by simpa using hl))

theorem runMicro_lengthOps (s : State) : runMicro lengthOps s = dgSerialize (padLen s) := rfl

/-- The rows of the table of R160 are PAD_LATCH, PAD_MARK, PAD_ZERO, PAD_LEN and DG_SERIALIZE at their occupancies. -/
theorem finalizeContext_eq_runMicro (s : State) (hu : s.bufferUsed.toNat < 64) :
    finalizeContext s = runMicro (finalizeMicro s.bufferUsed.toNat) s := by
  by_cases hshort : s.bufferUsed.toNat ≤ 55
  · rw [finalizeContext, padZero_padMark_short (padLatch s) hshort, finalizeMicro, if_pos hshort, runMicro_cons,
      runMicro_cons, runMicro_append, runMicro_putOps, runMicro_lengthOps]
    rfl
  rw [finalizeContext, padZero_padMark_long (padLatch s) (by simp; omega) hu, finalizeMicro, if_neg hshort]
  by_cases hroom : s.bufferUsed.toNat ≤ 62
  · rw [if_pos hroom, runMicro_cons, runMicro_cons, runMicro_append, runMicro_putOps, runMicro_cons, runMicro_append,
      runMicro_putOps, runMicro_lengthOps]
    rfl
  · have hlast : (padLatch s).bufferUsed.toNat = 63 := by rw [padLatch_bufferUsed]; omega
    rw [if_neg hroom, runMicro_cons, runMicro_cons, runMicro_cons, runMicro_append, runMicro_putOps,
      runMicro_lengthOps, hlast]
    rfl

/-! ### The compressions of a command (40_context_commands.md R131) -/

@[simp] theorem compressions_nil : compressions [] = 0 := rfl

@[simp] theorem compressions_append (ops ops' : List MicroOp) :
    compressions (ops ++ ops') = compressions ops + compressions ops' := List.countP_append

@[simp] theorem compressions_cons (op : MicroOp) (ops : List MicroOp) :
    compressions (op :: ops) = compressions ops + if op.compresses then 1 else 0 := List.countP_cons

@[simp] theorem compressions_putOps (bs : List Byte) : compressions (putOps bs) = 0 := by
  simp [compressions, putOps, MicroOp.compresses]

theorem compressions_updateMicro (u : Nat) (d : List Byte) (hu : u < 64) (hd : d.length ≤ 64) :
    compressions (updateMicro u d) = (u + d.length) / 64 := by
  unfold updateMicro
  split_ifs <;> simp [MicroOp.compresses] <;> omega

theorem compressions_finalizeMicro (u : Nat) :
    compressions (finalizeMicro u) = if u ≤ 55 then 1 else 2 := by
  unfold finalizeMicro lengthOps
  split_ifs <;> simp [MicroOp.compresses]

/-- Successive beats compress as often as one beat of all their bytes would. -/
theorem beatCompressions_eq (lens : List Nat) (u : Nat) (hu : u < 64) :
    beatCompressions u lens = (u + lens.sum) / 64 := by
  induction lens generalizing u with
  | nil => exact (Nat.div_eq_of_lt hu).symm
  | cons n ns ih =>
    rw [beatCompressions, ih _ (Nat.mod_lt _ (by decide)), List.sum_cons]
    omega

/-- Settles O27: each row counted, and the beats of a message together. -/
theorem compressionCounts : Obligations.CompressionCounts := by
  refine ⟨compressions_updateMicro, fun u _ => compressions_finalizeMicro u, fun lens => ?_⟩
  rw [beatCompressions_eq lens 0 (by decide), compressions_finalizeMicro, Nat.zero_add]
  refine ⟨rfl, ?_⟩
  split <;> omega

theorem lenAdd_not_mem_finalizeMicro (u n : Nat) : MicroOp.lenAdd n ∉ finalizeMicro u := by
  unfold finalizeMicro
  split_ifs <;> simp [putOps, lengthOps]

/-- Settles O26, row by row of the table. -/
theorem finalizeIsItsMicroSequence : Obligations.FinalizeIsItsMicroSequence := by
  intro s hp hu
  rw [← finalizeContext_eq_runMicro s hu]
  exact ⟨exec_finalize_eq s hp hu, compressions_finalizeMicro _, lenAdd_not_mem_finalizeMicro _⟩

/-! ### FINALIZE: the padded blocks (40_context_commands.md R124) -/

theorem finalizeContext_H_short (s : State) (h : s.bufferUsed.toNat ≤ 55) :
    (finalizeContext s).H = compress s.H (blockOf (s.held ++
      (0x80 : Byte) :: List.replicate (55 - s.bufferUsed.toNat) (0x00 : Byte) ++ bytesBE 8 (s.totalLength <<< 3))) := by
  rw [finalizeContext_short s h, dgSerialize_H, bufFlush_H_eq_compress, bufFlush_bufPuts_buffer _ _ (by simp; omega),
    (bufPuts_keep _ _ (by simp; omega)).1, padLatch_held, padLatch_H, List.append_assoc]

theorem finalizeContext_H_long (s : State) (h : 56 ≤ s.bufferUsed.toNat) (h' : s.bufferUsed.toNat < 64) :
    (finalizeContext s).H = compress
      (compress s.H (blockOf (s.held ++ (0x80 : Byte) :: List.replicate (63 - s.bufferUsed.toNat) (0x00 : Byte))))
      (blockOf (List.replicate 56 (0x00 : Byte) ++ bytesBE 8 (s.totalLength <<< 3))) := by
  rw [finalizeContext_long s h h', dgSerialize_H, bufFlush_H_eq_compress, bufFlush_bufPuts_buffer _ _ (by simp),
    (bufPuts_keep _ _ (by simp)).1, bufFlush_H_eq_compress, bufFlush_bufPuts_buffer _ (padLatch s) (by simp; omega),
    (bufPuts_keep _ (padLatch s) (by simp; omega)).1, held_of_used_zero (bufFlush _) (by simp), padLatch_held,
    padLatch_H, List.nil_append]

/-- Settles O24, from the state after FINALIZE and the two cases of its blocks. -/
theorem finalizeResult : Obligations.FinalizeResult := by
  intro s hp hu
  obtain ⟨hfault, -⟩ := finalizeContext_keep s hu
  refine ⟨_, exec_finalize_eq s hp hu, rfl, rfl, rfl, ?_, rfl, fun h => ?_, fun h => ?_⟩
  · rw [respond_fault, releaseContext_fault, hfault]
  · rw [respond_H, releaseContext_H, finalizeContext_H_short s h]
  · rw [respond_H, releaseContext_H, finalizeContext_H_long s h hu]

/-- Settles O25, from what FINALIZE does not write. -/
theorem finalizeFrame : Obligations.FinalizeFrame := by
  intro s t hp h
  obtain ⟨hi, -⟩ | ⟨len, hi, -⟩ | ⟨-, -, hu, rfl⟩ | ⟨c, -, -, hc⟩ := exec_cases h
  · cases hi
  · cases hi
  · obtain ⟨hfault, hword, hdata, hactions, -⟩ := finalizeContext_keep s hu
    simpa using ⟨hfault, hword, hdata, hactions⟩
  · exact absurd hp (hc rfl).2

/-- Settles O29: arithmetic modulo 64. -/
theorem paddingLengths : Obligations.PaddingLengths := by
  refine ⟨fun L => ⟨?_, fun z hz => ?_⟩, fun x => ?_, by decide⟩
  · unfold padZeros; omega
  · unfold padZeros; omega
  · rw [padMessage_eq]
    simp only [padding, padZeros, List.length_append, List.length_cons, List.length_replicate, bytesBE_length]
    omega

/-! ### The general Update (40_context_commands.md R122, R123) -/

/-- The general Update when step 1 takes nothing: blocks straight from the data, and the tail. -/
theorem updateGeneral_direct (d : List Byte) (s : State)
    (h : s.bufferUsed.toNat = 0 ∨ s.bufferUsed.toNat + d.length < 64) :
    updateGeneral d s =
      lenAdd d.length (bufPuts (d.drop (64 * (d.length / 64))) (directAll (d.length / 64) d s)) := by
  have hnone : takenByStep1 s.bufferUsed.toNat d.length = 0 := if_neg (by omega)
  rw [updateGeneral, hnone]
  rfl

/-- The general Update when step 1 completes a partly filled buffer. -/
theorem updateGeneral_completes (d : List Byte) (s : State) (hu : 0 < s.bufferUsed.toNat)
    (hu64 : s.bufferUsed.toNat < 64) (h : 64 ≤ s.bufferUsed.toNat + d.length) :
    updateGeneral d s =
      let rest := d.drop (64 - s.bufferUsed.toNat)
      lenAdd d.length (bufPuts (rest.drop (64 * (rest.length / 64))) (directAll (rest.length / 64) rest
        (bufFlush (bufPuts (d.take (64 - s.bufferUsed.toNat)) s)))) := by
  have htaken : takenByStep1 s.bufferUsed.toNat d.length = 64 - s.bufferUsed.toNat := if_pos ⟨hu, h⟩
  rw [updateGeneral, htaken]
  simp only [if_neg (show 64 - s.bufferUsed.toNat ≠ 0 by omega)]

/-- Data of at most one beat takes each row of the table of R159 in the general Update. -/
theorem updateGeneral_eq_runMicro (d : List Byte) (s : State) (hu : s.bufferUsed.toNat < 64) (hd : d.length ≤ 64) :
    updateGeneral d s = runMicro (updateMicro s.bufferUsed.toNat d) s := by
  by_cases hstore : s.bufferUsed.toNat + d.length < 64
  · rw [updateGeneral_direct d s (.inr hstore), runMicro_updateMicro_stores d s hstore,
      show d.length / 64 = 0 by omega]
    rfl
  by_cases hpart : 0 < s.bufferUsed.toNat
  · have hblocks : (d.drop (64 - s.bufferUsed.toNat)).length / 64 = 0 := by simp; omega
    rw [updateGeneral_completes d s hpart hu (by omega),
      runMicro_updateMicro_completes d s hpart (by omega) (by omega)]
    simp only [hblocks, directAll, blocksOf, Nat.mul_zero, List.drop_zero, List.foldl_nil]
  · have hlen : d.length = 64 := by omega
    rw [updateGeneral_direct d s (.inl (by omega)), runMicro_updateMicro_bypasses d s (by omega) hlen, hlen,
      List.drop_of_length_le (by omega)]
    rfl

/-- Settles O22: the beat and the general Update are the same micro-sequence. -/
theorem beatIsGeneralUpdate : Obligations.BeatIsGeneralUpdate := by
  intro s len hp hu hl
  rw [updateGeneral_eq_runMicro _ s hu (by simpa using hl)]
  exact updateIsItsMicroSequence s len hp hu hl

/-- Step 2 folds the blocks of the data into `H`. -/
theorem directAll_H (count : Nat) (d : List Byte) (s : State) :
    (directAll count d s).H = hashBlocks s.H (blocksOf count d) := by
  unfold directAll hashBlocks
  induction blocksOf count d generalizing s with
  | nil => rfl
  | cons B bs ih => rw [List.foldl_cons, ih, List.foldl_cons, blkDirect, compressBlock_H_eq_compress]

/-! ### Cutting data into beats (40_context_commands.md R123) -/

/-- Between `s` and `t` the bytes `d` were taken in: the bytes held in `s` and then `d`, cut into blocks from the front, are
folded into `H` as far as they fill blocks, and held as far as they do not. -/
structure TakesIn (d : List Byte) (s t : State) : Prop where
  hash : t.H = hashBlocks s.H (blocksOf ((s.held ++ d).length / 64) (s.held ++ d))
  used : t.bufferUsed.toNat = (s.held ++ d).length % 64
  tail : t.held = (s.held ++ d).drop (64 * ((s.held ++ d).length / 64))

theorem TakesIn.used_lt {d : List Byte} {s t : State} (h : TakesIn d s t) : t.bufferUsed.toNat < 64 := by
  rw [h.used]; exact Nat.mod_lt _ (by decide)

/-- Bytes taken in one after the other are taken in together. -/
theorem TakesIn.trans {x y : List Byte} {s t u : State} (h : TakesIn x s t) (h' : TakesIn y t u) :
    TakesIn (x ++ y) s u := by
  obtain ⟨hash', used', tail'⟩ := h'
  rw [h.tail] at hash' used' tail'
  have hlen : ((s.held ++ x).drop (64 * ((s.held ++ x).length / 64)) ++ y).length =
      (s.held ++ x).length % 64 + y.length := by
    rw [List.length_append, List.length_drop]; omega
  have hall : (s.held ++ x ++ y).length = (s.held ++ x).length + y.length := List.length_append
  have hcount : (s.held ++ x ++ y).length / 64 = (s.held ++ x).length / 64 +
      ((s.held ++ x).drop (64 * ((s.held ++ x).length / 64)) ++ y).length / 64 := by
    rw [hlen, hall]; omega
  refine ⟨?_, ?_, ?_⟩
  · rw [hash', h.hash, ← hashBlocks_append, ← List.append_assoc, hcount, blocksOf_append_add]
  · rw [used', hlen, ← List.append_assoc, hall]; omega
  · rw [tail', ← List.append_assoc, hcount, Nat.mul_add, ← List.drop_drop, drop_blocks_append]

/-- What is taken in decides the context after it from the context before it. -/
theorem TakesIn.sameContext {d : List Byte} {s s' t t' : State} (h : TakesIn d s t) (h' : TakesIn d s' t')
    (hH : s.H = s'.H) (hheld : s.held = s'.held) (htotal : t.totalLength = t'.totalLength) : SameContext t t' := by
  refine ⟨?_, htotal, BitVec.eq_of_toNat_eq ?_, ?_⟩
  · rw [h.hash, h'.hash, hH, hheld]
  · rw [h.used, h'.used, hheld]
  · rw [h.tail, h'.tail, hheld]

/-- Completing the buffer and flushing it takes in the bytes that complete it. -/
theorem takesIn_flush (d : List Byte) (s : State) (h : s.bufferUsed.toNat + d.length = 64) :
    TakesIn d s (bufFlush (bufPuts d s)) := by
  have hlen : (s.held ++ d).length = 64 := by simp; omega
  refine ⟨?_, ?_, ?_⟩
  · rw [bufFlush_H_eq_compress, bufFlush_bufPuts_buffer d s h, (bufPuts_keep d s h.le).1, hlen]; rfl
  · rw [hlen]; rfl
  · rw [hlen, List.drop_of_length_le (by omega)]; rfl

theorem directAll_held (count : Nat) (d : List Byte) (s : State) : (directAll count d s).held = s.held := by
  obtain ⟨hbuffer, hused, -⟩ := directAll_keep count d s
  rw [State.held, hbuffer, hused, State.held]

/-- Steps 2 and 3 of Update: whole blocks straight from the data when the buffer is empty, and the tail. -/
theorem takesIn_direct (d : List Byte) (s : State) (h : s.bufferUsed.toNat = 0 ∨ s.bufferUsed.toNat + d.length < 64) :
    TakesIn d s (bufPuts (d.drop (64 * (d.length / 64))) (directAll (d.length / 64) d s)) := by
  obtain ⟨-, hused, -⟩ := directAll_keep (d.length / 64) d s
  have hroom : (directAll (d.length / 64) d s).bufferUsed.toNat + (d.drop (64 * (d.length / 64))).length ≤ 64 := by
    rw [hused, List.length_drop]; omega
  have hheld := held_length_of_lt s (by omega)
  have hcount : (s.held ++ d).length / 64 = d.length / 64 := by rw [List.length_append, hheld]; omega
  refine ⟨?_, ?_, ?_⟩
  · rw [(bufPuts_keep _ _ hroom).1, directAll_H, hcount]
    rcases h with hempty | hsmall
    · rw [held_of_used_zero s hempty, List.nil_append]
    · rw [show d.length / 64 = 0 by omega]; rfl
  · rw [bufPuts_bufferUsed_toNat _ _ hroom, hused, List.length_drop, List.length_append, hheld]; omega
  · rw [bufPuts_held _ _ hroom, directAll_held, hcount]
    rcases h with hempty | hsmall
    · rw [held_of_used_zero s hempty, List.nil_append, List.nil_append]
    · rw [show d.length / 64 = 0 by omega]; rfl

theorem TakesIn.after_lenAdd {d : List Byte} {s t : State} (h : TakesIn d s t) (n : Nat) : TakesIn d s (lenAdd n t) :=
  ⟨h.hash, h.used, h.tail⟩

/-- The general Update takes in its data, whether or not step 1 completes the buffer. -/
theorem updateGeneral_takesIn (d : List Byte) (s : State) (hu : s.bufferUsed.toNat < 64) :
    TakesIn d s (updateGeneral d s) := by
  by_cases hdirect : s.bufferUsed.toNat = 0 ∨ s.bufferUsed.toNat + d.length < 64
  · rw [updateGeneral_direct d s hdirect]
    exact (takesIn_direct d s hdirect).after_lenAdd _
  · have hflush := takesIn_flush (d.take (64 - s.bufferUsed.toNat)) s (by simp; omega)
    have hrest := takesIn_direct (d.drop (64 - s.bufferUsed.toNat))
      (bufFlush (bufPuts (d.take (64 - s.bufferUsed.toNat)) s)) (.inl (by simp))
    have hboth := hflush.trans hrest
    rw [List.take_append_drop] at hboth
    rw [updateGeneral_completes d s (by omega) hu (by omega)]
    exact hboth.after_lenAdd _

/-- BUF_PUTs leave the counter at every occupancy, so the general Update needs no bound on its data here. -/
theorem bufPuts_keeps_totalLength (bs : List Byte) (s : State) : (bufPuts bs s).totalLength = s.totalLength := by
  induction bs generalizing s with
  | nil => rfl
  | cons b bs ih => exact ih (bufPut b s)

theorem directAll_totalLength (count : Nat) (d : List Byte) (s : State) :
    (directAll count d s).totalLength = s.totalLength := by
  obtain ⟨-, -, htotal, -⟩ := directAll_keep count d s
  exact htotal

theorem updateGeneral_totalLength (d : List Byte) (s : State) :
    (updateGeneral d s).totalLength = s.totalLength + BitVec.ofNat 64 d.length := by
  rw [updateGeneral, lenAdd_totalLength, bufPuts_keeps_totalLength, directAll_totalLength]
  split
  · rfl
  · rw [bufFlush_totalLength, bufPuts_keeps_totalLength]

/-- Settles O23: both sides take in the same bytes and count as many. -/
theorem cuttingDataIsHarmless : Obligations.CuttingDataIsHarmless := by
  intro s x y hp hu
  have hx := updateGeneral_takesIn x s hu
  have hy := updateGeneral_takesIn y (updateGeneral x s) hx.used_lt
  refine (hx.trans hy).sameContext (updateGeneral_takesIn (x ++ y) s hu) rfl rfl ?_
  simp only [updateGeneral_totalLength, List.length_append, BitVec.ofNat_add, BitVec.add_assoc]

/-! ### What a unit in ACTIVE has absorbed (10_state.md R25) -/

/-- A step without an OK response is a reset, or leaves the phase and the context. -/
theorem step_without_ok {s t : State} (h : step s = .next t) (hrsp : t.rsp ≠ some .ok) :
    t.phase = .uninit ∨ t.phase = s.phase ∧ SameContext s t := by
  obtain ⟨rfl, -⟩ | ⟨rest, -, rfl⟩ | ⟨rest, -, rfl⟩ | ⟨cw, data, rest, -, rfl⟩ |
    ⟨cw, data, rest, -, -, ⟨i, -, hexec⟩ | ⟨e, -, rfl⟩⟩ := step_cases h
  · exact .inr ⟨rfl, rfl, rfl, rfl, rfl⟩
  · exact .inr ⟨rfl, rfl, rfl, rfl, rfl⟩
  · exact .inl rfl
  · exact .inl rfl
  · obtain ⟨-, rfl⟩ | ⟨len, -, -, -, -, rfl⟩ | ⟨-, -, -, rfl⟩ | ⟨c, rfl, -⟩ := exec_cases hexec
    · exact absurd rfl hrsp
    · exact absurd rfl hrsp
    · exact absurd rfl hrsp
    · exact .inr ⟨rfl, rfl, rfl, rfl, rfl⟩
  · exact .inr ⟨rfl, rfl, rfl, rfl, rfl⟩

theorem Absorbed.of_sameContext {x : List Byte} {s t : State} (h : Absorbed x s) (hphase : t.phase = s.phase)
    (hst : SameContext s t) : Absorbed x t := by
  obtain ⟨hH, htotal, hused, hheld⟩ := hst
  exact ⟨hphase.trans h.phase_active, hH ▸ h.hash, htotal ▸ h.total, hused ▸ h.used, hheld ▸ h.tail⟩

theorem exec_init_absorbed {s t : State} (h : exec .init s = .next t) : Absorbed [] t := by
  cases (exec_init_eq s).symm.trans h
  exact (absorbed_init s).after_respond _

theorem exec_update_absorbed {s t : State} {x : List Byte} {len : BitVec 7} (hx : Absorbed x s) (hl : len.toNat ≤ 64)
    (h : exec (.update len) s = .next t) : Absorbed (x ++ beatBytes len.toNat s.cmdData) t := by
  cases (exec_update_eq s len hx.phase_active hx.used_lt hl).symm.trans h
  exact (hx.after_updateBeat _ (by simpa using hl)).after_respond _

theorem step_without_ok_absorbed {s t : State} {x : List Byte} (hx : Absorbed x s) (h : step s = .next t)
    (hrsp : t.rsp ≠ some .ok) (hp : t.phase = .active) : Absorbed x t := by
  obtain huninit | ⟨hphase, hst⟩ := step_without_ok h hrsp
  · rw [hp] at huninit; cases huninit
  · exact hx.of_sameContext hphase hst

/-- Settles O53: INIT, a beat, and a step that accepts no command. -/
theorem absorbedBytesAreTracked : Obligations.AbsorbedBytesAreTracked :=
  ⟨fun _ _ => exec_init_absorbed, fun _ _ _ _ => exec_update_absorbed, fun _ _ _ => step_without_ok_absorbed⟩

/-- An OK response is that of a command executed from the ports. -/
theorem step_ok {s t : State} (h : step s = .next t) (hrsp : t.rsp = some .ok) :
    ∃ i cw data rest, i.wellFormed = true ∧ exec i (transfer cw data { s with hostActions := rest }) = .next t := by
  obtain ⟨rfl, -⟩ | ⟨rest, -, rfl⟩ | ⟨rest, -, rfl⟩ | ⟨cw, data, rest, -, rfl⟩ |
    ⟨cw, data, rest, -, -, ⟨i, hd, hexec⟩ | ⟨e, -, rfl⟩⟩ := step_cases h
  · cases hrsp
  · cases hrsp
  · cases hrsp
  · cases hrsp
  · exact ⟨i, cw, data, rest, ((decode_eq_ok_iff cw i).mp hd).2, hexec⟩
  · cases hrsp

theorem nextPhase_finalize_ne_active (p : Phase) : nextPhase .finalize p ≠ .active := by
  cases p <;> decide

/-- Settles O54: without an OK response what was absorbed stays, with one the command tells what is absorbed now. -/
theorem stepKeepsAbsorbed : Obligations.StepKeepsAbsorbed := by
  intro s t hs h hp
  by_cases hrsp : t.rsp = some .ok
  · obtain ⟨i, cw, data, rest, hw, hexec⟩ := step_ok h hrsp
    cases i with
    | init => exact ⟨[], exec_init_absorbed hexec⟩
    | update len =>
      have hactive := (exec_phase hw hexec).symm.trans hp
      obtain ⟨x, hx⟩ := hs hactive
      exact ⟨_, exec_update_absorbed (hx.at_transfer cw data rest) (by simpa [Instr.wellFormed] using hw) hexec⟩
    | finalize =>
      exact absurd ((exec_phase hw hexec).symm.trans hp) (nextPhase_finalize_ne_active _)
  · obtain huninit | ⟨hphase, hst⟩ := step_without_ok h hrsp
    · rw [hp] at huninit; cases huninit
    · obtain ⟨x, hx⟩ := hs (hphase.symm.trans hp)
      exact ⟨x, hx.of_sameContext hphase hst⟩

/-! ### The digest of a message (40_context_commands.md R128, R132) -/

/-- Settles O55: the padded blocks of what was absorbed. -/
theorem finalizeGivesSha256 : Obligations.FinalizeGivesSha256 := by
  intro s x hx _
  refine ⟨_, exec_finalize_eq s hx.phase_active hx.used_lt, ?_, rfl⟩
  rw [sha256_eq, ← hx.finalizeContext_H]
  rfl

/-- Settles O56, from the run of the commands of one message. -/
theorem messageDigestIsSha256 : Obligations.MessageDigestIsSha256 := by
  intro s d0 d1 beats rest hr hlegal _ ha
  obtain ⟨t, hrun, -, hDG, hphase, hrsp, hready⟩ := runSteps_message hr hlegal ha
  exact ⟨t, hrun, hDG, hphase, hrsp, hready.fault, hready.actions⟩

theorem digestPort_of_finalized {s : State} (h : s.phase = .finalized) : s.digestPort = digestBits s.DG := by
  rw [State.digestPort, State.digestValid, h]; rfl

/-- Settles O58: what each run ends with is a function of its message. -/
theorem streamingEquivalenceAndReuse : Obligations.StreamingEquivalenceAndReuse := by
  intro s s' d0 d1 e0 e1 beats beats' rest rest' hr hr' hlegal hlegal' hmessage ha ha'
  obtain ⟨t, hrun, hH, hDG, hphase, -⟩ := runSteps_message hr hlegal ha
  obtain ⟨t', hrun', hH', hDG', hphase', -⟩ := runSteps_message hr' hlegal' ha'
  rw [← hmessage] at hH' hDG'
  have hDGs : t.DG = t'.DG := hDG.trans hDG'.symm
  refine ⟨t, t', hrun, hrun', hDGs, hH.trans hH'.symm, ?_⟩
  rw [digestPort_of_finalized hphase, digestPort_of_finalized hphase', hDGs]

/-! ### The specified state decides the step (40_context_commands.md R130) -/

/-- A beat takes in its bytes, as the general Update does. -/
theorem updateBeat_takesIn (d : List Byte) (s : State) (hu : s.bufferUsed.toNat < 64) (hd : d.length ≤ 64) :
    TakesIn d s (updateBeat d s) := by
  obtain ⟨hash, used, tail⟩ := updateGeneral_takesIn d s hu
  obtain ⟨p, hp⟩ := updateBeat_eq_runMicro d s hu hd
  rw [hp, ← updateGeneral_eq_runMicro d s hu hd]
  exact ⟨hash, used, tail⟩

/-- A beat from the same context leaves the same context. -/
theorem SameContext.after_updateBeat {s s' : State} (h : SameContext s s') (hu : s.bufferUsed.toNat < 64)
    (d : List Byte) (hd : d.length ≤ 64) : SameContext (updateBeat d s) (updateBeat d s') := by
  obtain ⟨hH, htotal, hused, hheld⟩ := h
  have hu' : s'.bufferUsed.toNat < 64 := by rwa [← hused]
  obtain ⟨-, ht⟩ := updateBeat_counters d s hu hd
  obtain ⟨-, ht'⟩ := updateBeat_counters d s' hu' hd
  exact (updateBeat_takesIn d s hu hd).sameContext (updateBeat_takesIn d s' hu' hd) hH hheld (by rw [ht, ht', htotal])

/-- FINALIZE from the same context ends with the same `H`. -/
theorem SameContext.finalizeContext_H {s s' : State} (h : SameContext s s')
    (hmod : s.bufferUsed.toNat = s.totalLength.toNat % 64) : (finalizeContext s).H = (finalizeContext s').H := by
  obtain ⟨hH, htotal, hused, hheld⟩ := h
  have hmod' : s'.bufferUsed.toNat = s.totalLength.toNat % 64 := by rw [← hused, hmod]
  have hnat : s.totalLength = BitVec.ofNat 64 s.totalLength.toNat := by simp
  rw [finalizeContext_H_eq_hashBlocks s _ hmod hnat,
    finalizeContext_H_eq_hashBlocks s' _ hmod' (htotal.symm.trans hnat), hH, hheld]

theorem SameSpecified.used_lt {s s' : State} (h : SameSpecified s s') (hp : s.phase = .active)
    (hu : s.bufferUsed.toNat < 64) : s'.bufferUsed.toNat < 64 := by
  obtain ⟨-, -, -, -, hcontext, -⟩ := h
  obtain ⟨-, -, hused, -⟩ := hcontext hp
  rwa [← hused]

theorem SameSpecified.after_raise {s s' : State} (h : SameSpecified s s') (cause : FaultCause) :
    SameSpecified (raise cause s) (raise cause s') := by
  obtain ⟨hphase, -, -, -, hcontext, hdigest⟩ := h
  exact ⟨hphase, rfl, rfl, rfl, hcontext, hdigest⟩

theorem SameSpecified.after_idle {s s' : State} (h : SameSpecified s s') : SameSpecified (idle s) (idle s') := by
  obtain ⟨hphase, hfault, hready, -, hcontext, hdigest⟩ := h
  exact ⟨hphase, hfault, hready, rfl, hcontext, hdigest⟩

theorem SameSpecified.at_transfer {s s' : State} (h : SameSpecified s s') (cw : BitVec 16) (data : BitVec 512)
    (rest : List HostAction) :
    SameSpecified (transfer cw data { s with hostActions := rest }) (transfer cw data { s' with hostActions := rest }) := by
  obtain ⟨hphase, hfault, -, -, hcontext, hdigest⟩ := h
  exact ⟨hphase, hfault, rfl, rfl, hcontext, hdigest⟩

/-- The reset event leaves nothing specified but the status and the handshake. -/
theorem sameSpecified_resetEvent (s s' : State) : SameSpecified (resetEvent s) (resetEvent s') :=
  ⟨rfl, rfl, rfl, rfl, nofun, nofun⟩

/-- INIT overwrites the context. -/
theorem SameSpecified.after_init {s s' : State} (h : SameSpecified s s') :
    SameSpecified (respond .ok { s with H := IV, totalLength := 0, bufferUsed := 0, phase := .active })
      (respond .ok { s' with H := IV, totalLength := 0, bufferUsed := 0, phase := .active }) := by
  obtain ⟨-, hfault, -⟩ := h
  exact ⟨rfl, hfault, rfl, rfl, fun _ => ⟨rfl, rfl, rfl, rfl⟩, nofun⟩

/-- A beat changes the context by what the context was. -/
theorem SameSpecified.after_updateBeat {s s' : State} (h : SameSpecified s s') (hp : s.phase = .active)
    (hu : s.bufferUsed.toNat < 64) (d : List Byte) (hd : d.length ≤ 64) :
    SameSpecified (respond .ok (updateBeat d s)) (respond .ok (updateBeat d s')) := by
  have hu' := h.used_lt hp hu
  obtain ⟨hphase, hfault, -, -, hcontext, -⟩ := h
  obtain ⟨hph, hf, -⟩ := updateBeat_keep d s hu hd
  obtain ⟨hph', hf', -⟩ := updateBeat_keep d s' hu' hd
  refine ⟨hph.trans (hphase.trans hph'.symm), hf.trans (hfault.trans hf'.symm), rfl, rfl,
    fun _ => (hcontext hp).after_updateBeat hu d hd, fun hfin => ?_⟩
  rw [respond_phase, hph, hp] at hfin
  cases hfin

theorem finalizeContext_DG (s : State) : (finalizeContext s).DG = serialize (finalizeContext s).H := rfl

/-- What FINALIZE leaves specified is `fault`, `H` and `DG` of the padded context. -/
theorem sameSpecified_finalized {u u' : State} (hfault : u.fault = u'.fault) (hH : u.H = u'.H) (hDG : u.DG = u'.DG) :
    SameSpecified (respond .ok { releaseContext u with phase := .finalized })
      (respond .ok { releaseContext u' with phase := .finalized }) :=
  ⟨rfl, hfault, rfl, rfl, nofun, fun _ => ⟨hH, hDG⟩⟩

/-- FINALIZE computes `H` and `DG` from the context and leaves the rest unspecified. -/
theorem SameSpecified.after_finalize {s s' : State} (h : SameSpecified s s') (hp : s.phase = .active)
    (hs : ContextInv s) :
    SameSpecified (respond .ok { releaseContext (finalizeContext s) with phase := .finalized })
      (respond .ok { releaseContext (finalizeContext s') with phase := .finalized }) := by
  obtain ⟨hu, hmod⟩ := hs.1 hp
  have hu' := h.used_lt hp hu
  obtain ⟨-, hfault, -, -, hcontext, -⟩ := h
  have hH := (hcontext hp).finalizeContext_H hmod
  obtain ⟨hf, -⟩ := finalizeContext_keep s hu
  obtain ⟨hf', -⟩ := finalizeContext_keep s' hu'
  exact sameSpecified_finalized (hf.trans (hfault.trans hf'.symm)) hH
    (by rw [finalizeContext_DG, finalizeContext_DG, hH])

/-- A legal command on the same specified state, with the same beat on the port. -/
theorem exec_sameSpecified {i : Instr} {s s' t : State} (h : SameSpecified s s') (hs : ContextInv s)
    (hw : i.wellFormed = true) (hdata : s.cmdData = s'.cmdData) (hexec : exec i s = .next t) :
    ∃ t', exec i s' = .next t' ∧ SameSpecified t t' := by
  have hphase : s.phase = s'.phase := h.1
  obtain ⟨rfl, rfl⟩ | ⟨len, rfl, hl, hp, hu, rfl⟩ | ⟨rfl, hp, hu, rfl⟩ | ⟨c, rfl, hi, hc⟩ := exec_cases hexec
  · exact ⟨_, exec_init_eq s', h.after_init⟩
  · refine ⟨_, exec_update_eq s' len (hphase.symm.trans hp) (h.used_lt hp hu) hl, ?_⟩
    rw [← hdata]
    exact h.after_updateBeat hp hu _ (by simpa using hl)
  · exact ⟨_, exec_finalize_eq s' (hphase.symm.trans hp) (h.used_lt hp hu), h.after_finalize hp hs⟩
  · obtain ⟨rfl, hp⟩ := hc hw
    exact ⟨_, exec_refused hi hw (by rwa [← hphase]), h.after_raise _⟩

/-- Settles O59, by the cases of a step; a command reads no more than the specified state and its beat. -/
theorem specifiedStateDeterminesStep : Obligations.SpecifiedStateDeterminesStep := by
  intro s s' t hs hs' h hactions hstep
  obtain ⟨hr, hctx⟩ := (inv_iff_contextInv s).mp hs
  have hr' : s'.cmdReady = true := hs'.1
  obtain ⟨rfl, ha | ⟨hbusy, -⟩⟩ | ⟨rest, ha, rfl⟩ | ⟨rest, ha, rfl⟩ | ⟨cw, data, rest, ha, rfl⟩ |
    ⟨cw, data, rest, -, ha, ⟨i, hd, hexec⟩ | ⟨e, hd, rfl⟩⟩ := step_cases hstep
  · exact ⟨_, step_nothing (hactions.symm.trans ha), h.after_idle, hactions⟩
  · rw [hr] at hbusy; cases hbusy
  · have hrest : SameSpecified { s with hostActions := rest } { s' with hostActions := rest } := h
    exact ⟨_, step_idle (hactions.symm.trans ha), hrest.after_idle, rfl⟩
  · exact ⟨_, step_reset (hactions.symm.trans ha), sameSpecified_resetEvent _ _, rfl⟩
  · exact ⟨_, step_abortedCommand (hactions.symm.trans ha), sameSpecified_resetEvent _ _, rfl⟩
  · obtain ⟨t', hexec', ht⟩ := exec_sameSpecified (h.at_transfer cw data rest) (hctx.at_transfer cw data rest)
      ((decode_eq_ok_iff cw i).mp hd).2 rfl hexec
    obtain ⟨-, -, hafter⟩ := exec_frame hexec
    obtain ⟨-, -, hafter'⟩ := exec_frame hexec'
    exact ⟨t', (stepRunsDecodedCommand s' cw data rest i hr' (hactions.symm.trans ha) hd).trans hexec', ht,
      hafter.trans hafter'.symm⟩
  · exact ⟨_, (step_transfer hr' (hactions.symm.trans ha)).trans (runCommand_illegal (s := transfer cw data _) hd),
      (h.at_transfer cw data rest).after_raise _, rfl⟩

end Sys2Proof.Machine

/-! The padding buffer family (41_padding_buffer.md): the micro-operations one by one, the marker and the zeros of the
padding, and where the commands over them stop. -/

namespace Sys2Proof.Machine

/-! ### BUF_PUT, BUF_FLUSH, BLK_DIRECT (41_padding_buffer.md R150 to R152) -/

theorem bufPut_buffer_getElem (b : Byte) (s : State) {j : Nat} (hj : j < 64) :
    (bufPut b s).buffer[j] = if j = s.bufferUsed.toNat then b else s.buffer[j] := by
  simp only [bufPut_buffer, bytesBE_one, writeBytes_cons, writeBytes_nil, Vector.getElem_setIfInBounds, eq_comm]

/-- Settles O42: the occupancy by the count of one BUF_PUT, the bytes by the store. -/
theorem bufPutResult : Obligations.BufPutResult :=
  fun s b hu => ⟨_, rfl, bufPuts_bufferUsed_toNat [b] s (Nat.succ_le_succ hu), fun _ hj => bufPut_buffer_getElem b s hj⟩

/-- A compression writes `H` and the registers of the compressor. -/
theorem compressBlock_eq (B : Block) (s : State) :
    compressBlock B s = { s with H := compress s.H B, comp := runCompressor B s.H s.comp } := by
  rw [← compressBlock_H_eq_compress]; rfl

theorem bufFlush_eq (s : State) :
    bufFlush s =
      { s with H := compress s.H s.buffer, bufferUsed := 0, comp := runCompressor s.buffer s.H s.comp } := by
  rw [bufFlush, compressBlock_eq]

/-- Sixty-four BUF_PUTs at an empty buffer leave the block of their bytes in it. -/
theorem bufPuts_buffer_of_empty (d : List Byte) (s : State) (hu : s.bufferUsed.toNat = 0) (hd : d.length = 64) :
    (bufPuts d s).buffer = blockOf d := by
  rw [bufFlush_bufPuts_buffer d s (by omega), held_of_used_zero s hu, List.nil_append]

/-- Settles O43: one compression each, and of one block at an empty buffer. -/
theorem flushAndDirectAgree : Obligations.FlushAndDirectAgree := by
  refine ⟨fun s => ⟨_, bufFlush_eq s⟩, fun s B => ⟨_, compressBlock_eq B s⟩, fun s d hu hd => ⟨?_, hu.symm⟩⟩
  have hused : s.bufferUsed.toNat = 0 := by rw [hu]; rfl
  calc (bufFlush (bufPuts d s)).H
      = compress (bufPuts d s).H (bufPuts d s).buffer := bufFlush_H_eq_compress _
    _ = compress s.H (blockOf d) := by
        rw [bufPuts_buffer_of_empty d s hused hd, (bufPuts_keep d s (by omega)).1]
    _ = (blkDirect (blockOf d) s).H := (compressBlock_H_eq_compress _ _).symm

/-! ### The counters (41_padding_buffer.md R153, R154) -/

theorem lenAdd_totalLength_toNat (n : Nat) (s : State) :
    (lenAdd n s).totalLength.toNat = (s.totalLength.toNat + n) % 2 ^ 64 := by
  rw [lenAdd_totalLength, BitVec.toNat_add, BitVec.toNat_ofNat, Nat.add_mod_mod]

theorem padLatch_bitlen_toNat (s : State) : (padLatch s).bitlen.toNat = 8 * s.totalLength.toNat % 2 ^ 64 := by
  rw [padLatch_bitlen, BitVec.toNat_shiftLeft, Nat.shiftLeft_eq, Nat.mul_comm]

/-- Settles O44: each counter by the number it holds, each example by the shift of its number. -/
theorem counterArithmetic : Obligations.CounterArithmetic := by
  refine ⟨fun s n _ => ⟨_, rfl, lenAdd_totalLength_toNat n s⟩, fun s => ⟨_, rfl, padLatch_bitlen_toNat s⟩,
    fun s h => ?_, fun s h => ?_, fun s h => ?_, fun s h => ?_⟩
  all_goals rw [padLatch_bitlen, h]; rfl

/-! ### PAD_MARK and PAD_ZERO (41_padding_buffer.md R155, R156) -/

/-- Where the length field fits, the marker and the zeros are BUF_PUTs up to occupancy 56. -/
theorem padZero_padMark_context_short (s : State) (h : s.bufferUsed.toNat ≤ 55) :
    (padZero (padMark s)).bufferUsed.toNat = 56 ∧ (padZero (padMark s)).totalLength = s.totalLength ∧
      (padZero (padMark s)).H = s.H ∧
      (padZero (padMark s)).held = s.held ++ (0x80 : Byte) :: List.replicate (55 - s.bufferUsed.toNat) (0x00 : Byte) := by
  rw [padZero_padMark_short s h]
  generalize hbs : (0x80 : Byte) :: List.replicate (55 - s.bufferUsed.toNat) (0x00 : Byte) = bs
  have hfit : s.bufferUsed.toNat + bs.length = 56 := by rw [← hbs]; simp; omega
  obtain ⟨hH, htotal, -⟩ := bufPuts_keep bs s (by omega)
  exact ⟨(bufPuts_bufferUsed_toNat bs s (by omega)).trans hfit, htotal, hH, bufPuts_held bs s (by omega)⟩

/-- Where it does not fit, they fill the buffer up, which is flushed, and 56 more zeros follow. -/
theorem padZero_padMark_context_long (s : State) (h : 56 ≤ s.bufferUsed.toNat) (h' : s.bufferUsed.toNat < 64) :
    (padZero (padMark s)).bufferUsed.toNat = 56 ∧ (padZero (padMark s)).totalLength = s.totalLength ∧
      (padZero (padMark s)).H =
        compress s.H (blockOf (s.held ++ (0x80 : Byte) :: List.replicate (63 - s.bufferUsed.toNat) (0x00 : Byte))) ∧
      (padZero (padMark s)).held = List.replicate 56 (0x00 : Byte) := by
  rw [padZero_padMark_long s h h']
  generalize hbs : (0x80 : Byte) :: List.replicate (63 - s.bufferUsed.toNat) (0x00 : Byte) = bs
  have hfull : s.bufferUsed.toNat + bs.length = 64 := by rw [← hbs]; simp; omega
  obtain ⟨hH, htotal, -⟩ := bufPuts_keep bs s hfull.le
  have hroom : (bufFlush (bufPuts bs s)).bufferUsed.toNat + (List.replicate 56 (0x00 : Byte)).length ≤ 64 := by simp
  obtain ⟨hzerosH, hzerosTotal, -⟩ := bufPuts_keep _ _ hroom
  refine ⟨by rw [bufPuts_bufferUsed_toNat _ _ hroom]; simp, hzerosTotal.trans htotal, ?_, ?_⟩
  · rw [hzerosH, bufFlush_H_eq_compress, hH, bufFlush_bufPuts_buffer bs s hfull]
  · rw [bufPuts_held _ _ hroom, held_of_used_zero (bufFlush _) (by simp), List.nil_append]

/-- Settles O45, by whether the marker leaves room for the length field. -/
theorem paddingReachesOffset56 : Obligations.PaddingReachesOffset56 := by
  intro s hu
  by_cases hroom : s.bufferUsed.toNat ≤ 55
  · obtain ⟨hused, htotal, hH, hheld⟩ := padZero_padMark_context_short s hroom
    exact ⟨hused, htotal, fun _ => ⟨hH, hheld⟩, fun h => absurd h (by omega)⟩
  · obtain ⟨hused, htotal, hH, hheld⟩ := padZero_padMark_context_long s (by omega) hu
    exact ⟨hused, htotal, fun h => absurd h hroom, fun _ => ⟨hH, hheld⟩⟩

/-! ### The control of a beat (41_padding_buffer.md R161) -/

/-- The kinds of a run of BUF_PUTs are known from their number. -/
theorem map_kind_putOps (bs : List Byte) : (putOps bs).map MicroOp.kind = List.replicate bs.length "BUF_PUT" := by
  rw [putOps, List.map_map]
  exact List.map_const'

/-- Settles O28, row by row of the table: what depends on the bytes is only what each BUF_PUT and BLK_DIRECT carries. -/
theorem controlIgnoresData : Obligations.ControlIgnoresData := by
  intro u d d' h
  unfold updateMicro
  rw [h]
  split_ifs
  · rfl
  · simp only [List.map_append, map_kind_putOps, h]
  · simp only [List.map_append, List.map_cons, map_kind_putOps, List.length_take, List.length_drop, h]
  · rfl

/-! ### Where the commands stop (log 7) -/

theorem exec_stops {i : Instr} {s : State} (hi : i ≠ .init) (hw : i.wellFormed = true) (hp : s.phase = .active)
    (hu : 64 ≤ s.bufferUsed.toNat) : exec i s = .fault .bufferOccupancy := by
  cases i with
  | init => exact absurd rfl hi
  | update len =>
    have hl : len.toNat ≤ 64 := by simpa [Instr.wellFormed] using hw
    show execUpdate len s = _
    rw [execUpdate, if_neg (by omega), if_neg (not_not_intro hp), if_pos hu]
  | finalize =>
    show execFinalize s = _
    rw [execFinalize, if_neg (not_not_intro hp), if_pos hu]

/-- The only stop is that of `exec_stops`: INIT and an ill-formed UPDATE do not even look at the occupancy. -/
theorem exec_stops_or_next (i : Instr) (s : State) :
    (s.phase = .active ∧ 64 ≤ s.bufferUsed.toNat ∧ i ≠ .init ∧ i.wellFormed = true) ∨ ∃ t, exec i s = .next t := by
  by_cases hocc : s.phase = .active → s.bufferUsed.toNat < 64
  · exact .inr (exec_total i hocc)
  obtain ⟨hp, hu⟩ := Classical.not_imp.mp hocc
  cases i with
  | init => exact .inr ⟨_, exec_init_eq s⟩
  | update len =>
    by_cases hl : len.toNat ≤ 64
    · exact .inl ⟨hp, not_lt.mp hu, by simp, by simpa [Instr.wellFormed] using hl⟩
    · exact .inr ⟨_, exec_update_overlong s len (not_le.mp hl)⟩
  | finalize => exact .inl ⟨hp, not_lt.mp hu, by simp, rfl⟩

/-- With an occupancy below 64 in ACTIVE no step stops. -/
theorem step_total {s : State} (h : s.phase = .active → s.bufferUsed.toNat < 64) : ∃ t, step s = .next t := by
  cases ha : s.hostActions with
  | nil => exact ⟨_, step_nothing ha⟩
  | cons a rest =>
    cases a with
    | idle => exact ⟨_, step_idle ha⟩
    | reset => exact ⟨_, step_reset ha⟩
    | abortedCommand cw data => exact ⟨_, step_abortedCommand ha⟩
    | command cw data =>
      cases hr : s.cmdReady with
      | false => exact ⟨_, step_busy hr ha⟩
      | true =>
        obtain ⟨t, -, ht, -⟩ := runCommand_responds (s := transfer cw data { s with hostActions := rest }) h
        exact ⟨t, (step_transfer hr ha).trans ht⟩

/-- Settles O34: a command that does not meet the condition of the stop gives a next state. -/
theorem onlyOccupancyStops : Obligations.OnlyOccupancyStops := by
  intro s i
  refine ⟨⟨?_, fun ⟨hp, hu, hi, hw⟩ => ⟨_, exec_stops hi hw hp hu⟩⟩, fun r hr => ?_, fun hs =>
    step_total fun hp => (hs.2.1 hp).1⟩
  · rintro ⟨r, hr⟩
    obtain hstop | ⟨t, ht⟩ := exec_stops_or_next i s
    · exact hstop
    · rw [ht] at hr; cases hr
  · obtain ⟨hp, hu, hi, hw⟩ | ⟨t, ht⟩ := exec_stops_or_next i s
    · rw [exec_stops hi hw hp hu] at hr; cases hr
    · rw [ht] at hr; cases hr

end Sys2Proof.Machine

/-! The message schedule family (42_message_schedule.md): the four sigma functions, and the schedule computed beside the
rounds from a window of sixteen words. -/

namespace Sys2Proof.Machine

/-! ### The sigma functions (42_message_schedule.md R172, R173; 43_compression_unit.md R189, R190) -/

/-- The two shifts of `ROTR` are the library's rotation, for every amount below the width. -/
theorem rotr_eq_rotateRight (x : Word) {n : Nat} (h : n < 32) : rotr x n = x.rotateRight n := by
  rw [BitVec.rotateRight, Nat.mod_eq_of_lt h, BitVec.rotateRightAux, rotr]

/-- `f` is linear over XOR. -/
def XorLinear (f : Word → Word) : Prop := ∀ x y, f (x ^^^ y) = f x ^^^ f y

theorem xorLinear_shr (n : Nat) : XorLinear (shr · n) := fun _ _ => BitVec.ushiftRight_xor_distrib _ _ _

theorem xorLinear_rotr {n : Nat} (h : n < 32) : XorLinear (rotr · n) := by
  intro x y
  simp only [rotr_eq_rotateRight _ h]
  apply BitVec.eq_of_getElem_eq
  intro i hi
  simp only [BitVec.getElem_xor, BitVec.getElem_rotateRight]
  split <;> rfl

theorem XorLinear.xor {f g : Word → Word} (hf : XorLinear f) (hg : XorLinear g) :
    XorLinear fun x => f x ^^^ g x := by
  intro x y
  show f (x ^^^ y) ^^^ g (x ^^^ y) = (f x ^^^ g x) ^^^ (f y ^^^ g y)
  rw [hf x y, hg x y]
  ac_rfl

theorem XorLinear.map_zero {f : Word → Word} (hf : XorLinear f) : f 0 = 0 := by
  have h := hf 0 0
  rwa [BitVec.xor_self, BitVec.xor_self] at h

theorem xorLinear_ssig0 : XorLinear ssig0 :=
  ((xorLinear_rotr (by decide)).xor (xorLinear_rotr (by decide))).xor (xorLinear_shr 3)

theorem xorLinear_ssig1 : XorLinear ssig1 :=
  ((xorLinear_rotr (by decide)).xor (xorLinear_rotr (by decide))).xor (xorLinear_shr 10)

theorem xorLinear_bsig0 : XorLinear bsig0 :=
  ((xorLinear_rotr (by decide)).xor (xorLinear_rotr (by decide))).xor (xorLinear_rotr (by decide))

theorem xorLinear_bsig1 : XorLinear bsig1 :=
  ((xorLinear_rotr (by decide)).xor (xorLinear_rotr (by decide))).xor (xorLinear_rotr (by decide))

/-- Settles O37: each function is an XOR of rotations and shifts, all linear over XOR; the examples are computed. -/
theorem sigmaFunctions : Obligations.SigmaFunctions := by
  refine ⟨fun x => ?_,
    fun x y => ⟨xorLinear_ssig0 x y, xorLinear_ssig1 x y, xorLinear_bsig0 x y, xorLinear_bsig1 x y⟩,
    ⟨xorLinear_ssig0.map_zero, xorLinear_ssig1.map_zero, xorLinear_bsig0.map_zero, xorLinear_bsig1.map_zero⟩,
    by decide, by decide, by decide, by decide, by decide⟩
  simp only [← rotr_eq_rotateRight, Nat.reduceLT]
  exact ⟨rfl, rfl, rfl, rfl⟩

/-! ### The schedule beside the rounds (42_message_schedule.md R174) -/

/-- The next word reads the last sixteen words only. -/
theorem nextWord_cons (w : Word) (l : List Word) (h : 16 ≤ l.length) : nextWord (w :: l) = nextWord l := by
  have hread : ∀ i, 1 ≤ i → i ≤ 16 → (w :: l).getD ((w :: l).length - i) 0 = l.getD (l.length - i) 0 := by
    intro i hi hi'
    rw [List.length_cons, Nat.sub_add_comm (by omega), List.getD_cons_succ]
  rw [nextWord, hread 2 (by omega) (by omega), hread 7 (by omega) (by omega), hread 15 (by omega) (by omega),
    hread 16 (by omega) (by omega), nextWord]

/-- So a word with sixteen after it can be dropped from what is expanded. -/
theorem expandWords_cons (n : Nat) (w : Word) (l : List Word) (h : 16 ≤ l.length) :
    expandWords n (w :: l) = w :: expandWords n l := by
  induction n generalizing l with
  | zero => rfl
  | succ n ih =>
    rw [expandWords, nextWord_cons w l h, List.cons_append, ih _ (by simp; omega), expandWords]

/-- The window gives each round the word that an expansion of as many words as there are rounds would give it. -/
theorem windowRounds_eq_foldl (ks win : List Word) (v : Words8) (h : win.length = 16) :
    windowRounds ks win v =
      (ks.zip (expandWords ks.length win)).foldl (fun v kw => roundStep v kw.1 kw.2) v := by
  induction ks generalizing win v with
  | nil => rfl
  | cons k ks ih =>
    obtain ⟨w, l, rfl⟩ := List.exists_cons_of_length_pos (show 0 < win.length by omega)
    have hl : (l ++ [nextWord (w :: l)]).length = 16 := by simpa using h
    rw [windowRounds, List.length_cons, expandWords, List.cons_append, expandWords_cons _ _ _ hl.ge, List.zip_cons_cons,
      List.foldl_cons, ← ih _ _ hl]
    rfl

/-- Expansion appends to the words it has. -/
theorem exists_expandWords_eq_append (n : Nat) (l : List Word) : ∃ ws, expandWords n l = l ++ ws := by
  induction n generalizing l with
  | zero => exact ⟨[], (List.append_nil l).symm⟩
  | succ n ih =>
    obtain ⟨ws, hws⟩ := ih (l ++ [nextWord l])
    exact ⟨nextWord l :: ws, by rw [expandWords, hws, List.append_assoc, List.singleton_append]⟩

/-- The sixteen words that a window computes past the sixty-fourth meet no round constant. -/
theorem kTable_zip_expandWords (B : Block) :
    kTable.zip (expandWords 64 (blockWords B)) = kTable.zip (schedule B) := by
  obtain ⟨ws, hws⟩ := exists_expandWords_eq_append 16 (expandWords 48 (blockWords B))
  have hlen : kTable.length = (expandWords 48 (blockWords B)).length := by
    rw [expandWords_length, blockWords_length, kTable_length]
  unfold schedule
  rw [expandWords_append 48 16, hws, ← List.append_nil kTable, List.zip_append hlen, List.zip_nil_left,
    List.append_nil, List.append_nil]

/-- Settles O41: both fold the round over the same pairs of round constant and schedule word. -/
theorem windowScheduleIsEquivalent : Obligations.WindowScheduleIsEquivalent := by
  intro S B
  unfold compressWindow compress
  rw [windowRounds_eq_foldl kTable _ S (blockWords_length B), kTable_length, kTable_zip_expandWords]

end Sys2Proof.Machine

/-! The compression unit family (43_compression_unit.md): the functions CH and MAJ bit by bit, one round, and the
compression over the unit's registers. -/

namespace Sys2Proof.Machine

/-! ### CH (43_compression_unit.md R187) -/

theorem ch_getLsbD (x y z : Word) {i : Nat} (h : i < 32) :
    (ch x y z).getLsbD i = if x.getLsbD i then y.getLsbD i else z.getLsbD i := by
  rw [ch, BitVec.getLsbD_xor, BitVec.getLsbD_and, BitVec.getLsbD_and, BitVec.getLsbD_not, decide_eq_true h]
  cases x.getLsbD i <;> simp

/-- Where one of the two terms may have a bit set, the other has none, so OR joins them as XOR does. -/
theorem ch_eq_or (x y z : Word) : ch x y z = (x &&& y) ||| (~~~x &&& z) := by
  refine BitVec.eq_of_getLsbD_eq fun i hi => ?_
  rw [ch_getLsbD x y z hi, BitVec.getLsbD_or, BitVec.getLsbD_and, BitVec.getLsbD_and, BitVec.getLsbD_not,
    decide_eq_true hi]
  cases x.getLsbD i <;> simp

theorem ch_terms_disjoint (x y z : Word) : (x &&& y) &&& (~~~x &&& z) = 0#32 := by
  calc (x &&& y) &&& (~~~x &&& z)
      = (x &&& ~~~x) &&& (y &&& z) := by ac_rfl
    _ = 0#32 := by simp

/-- Without a common bit the addition has no carry. -/
theorem ch_eq_add (x y z : Word) : ch x y z = (x &&& y) + (~~~x &&& z) := by
  rw [BitVec.add_eq_or_of_and_eq_zero _ _ (ch_terms_disjoint x y z), ch_eq_or]

theorem ch_zero (y z : Word) : ch 0#32 y z = z := by
  rw [ch, BitVec.zero_and, BitVec.zero_xor, BitVec.not_zero, BitVec.allOnes_and]

theorem ch_allOnes (y z : Word) : ch (BitVec.allOnes 32) y z = y := by
  rw [ch, BitVec.not_allOnes, BitVec.zero_and, BitVec.xor_zero, BitVec.allOnes_and]

/-- Settles O35: the selection decides each bit of the other forms; the examples are computed. -/
theorem chSelects : Obligations.ChSelects :=
  ⟨fun x y z => ⟨rfl, fun _ hi => ch_getLsbD x y z hi, ch_eq_or x y z, ch_eq_add x y z, ch_zero y z, ch_allOnes y z⟩,
    by decide, by decide⟩

/-! ### MAJ (43_compression_unit.md R188) -/

theorem maj_getLsbD (x y z : Word) (i : Nat) : (maj x y z).getLsbD i =
    (x.getLsbD i && y.getLsbD i || x.getLsbD i && z.getLsbD i || y.getLsbD i && z.getLsbD i) := by
  simp only [maj, BitVec.getLsbD_xor, BitVec.getLsbD_and]
  generalize x.getLsbD i = a, y.getLsbD i = b, z.getLsbD i = c
  revert a b c
  decide

theorem maj_swap_left (x y z : Word) : maj x y z = maj y x z := by
  unfold maj
  ac_rfl

theorem maj_swap_right (x y z : Word) : maj x y z = maj x z y := by
  unfold maj
  ac_rfl

/-- Settles O36: the majority bit by bit, the symmetry by reordering the terms; the examples are computed. -/
theorem majIsMajority : Obligations.MajIsMajority :=
  ⟨fun x y z => ⟨rfl, fun i _ => maj_getLsbD x y z i, maj_swap_left x y z, maj_swap_right x y z⟩,
    by decide, by decide, by decide, by decide, by decide⟩

/-! ### One round (43_compression_unit.md R193) -/

/-- The index counts up without wrapping: it has seven bits. -/
theorem cuRound_t_toNat (r : Compressor) (h : r.t.toNat ≤ 63) : (cuRound r).t.toNat = r.t.toNat + 1 := by
  rw [cuRound_t, BitVec.toNat_add, show (1 : BitVec 7).toNat = 1 from rfl]
  omega

/-- Settles O39: the round by its definition, the index by the bound on it; the examples are computed. -/
theorem roundResult : Obligations.RoundResult :=
  ⟨fun r ht => ⟨_, _, rfl, rfl, rfl, cuRound_t_toNat r ht⟩, by decide, by decide, by decide, by decide⟩

/-! ### The compression (43_compression_unit.md R200) -/

/-- Settles O40: the registers left are those of the sixty-four rounds. -/
theorem compressionRefinesCompress : Obligations.CompressionRefinesCompress :=
  fun B s => ⟨_, compressBlock_eq B s, runCompressor_t B s.H s.comp⟩

end Sys2Proof.Machine

/-! The digest output family (44_digest_output.md): the bytes of DG_SERIALIZE, the bits of the digest port, and what keeps
the port as it is. -/

namespace Sys2Proof.Machine

/-! ### DG_SERIALIZE (44_digest_output.md R220) -/

theorem serialize_getElem (x : Words8) {i j : Nat} (hi : i < 8) (hj : j < 4) :
    (serialize x)[4 * i + j] = ((wordsOf x).getD i 0).extractLsb' (24 - 8 * j) 8 := by
  have hword : (4 * i + j) / 4 = i := by omega
  have hbyte : (4 * i + j) % 4 = j := by omega
  have hbit : 8 * (4 - 1 - j) = 24 - 8 * j := by omega
  unfold serialize
  rw [Vector.getElem_ofFn, hword, hbyte, bytesBE_getD 4 j _ hj, hbit]

/-- Settles O47: byte by byte. -/
theorem serializeIsBigEndian : Obligations.SerializeIsBigEndian :=
  fun s => ⟨serialize s.H, rfl, fun _ _ => serialize_getElem s.H⟩

/-! ### The digest port (44_digest_output.md R221, R222) -/

/-- One byte shifted in below the others: the step of the fold in `digestBits`. -/
def shiftIn (acc : BitVec 256) (b : Byte) : BitVec 256 := acc <<< 8 ||| b.setWidth 256

theorem digestBits_eq_foldl (dg : Vector Byte 32) : digestBits dg = dg.toList.foldl shiftIn 0 := by
  unfold digestBits
  rfl

/-- The byte shifted in last is the lowest one. -/
theorem extractLsb'_shiftIn_zero (acc : BitVec 256) (b : Byte) :
    (shiftIn acc b).extractLsb' 0 8 = b := by
  refine BitVec.eq_of_getLsbD_eq fun i hi => ?_
  simp [shiftIn, hi, show i < 256 by omega]

/-- The bytes below the top one move up by one place. -/
theorem extractLsb'_shiftIn_succ (acc : BitVec 256) (b : Byte) {m : Nat} (h : m + 1 < 32) :
    (shiftIn acc b).extractLsb' (8 * (m + 1)) 8 = acc.extractLsb' (8 * m) 8 := by
  refine BitVec.eq_of_getLsbD_eq fun i hi => ?_
  have hwidth : 8 * (m + 1) + i < 256 := by omega
  have hlow : ¬ 8 * (m + 1) + i < 8 := by omega
  have hplace : 8 * (m + 1) + i - 8 = 8 * m + i := by omega
  have habove : b.getLsbD (8 * (m + 1) + i) = false := BitVec.getLsbD_of_ge b _ (by omega)
  rw [shiftIn, BitVec.getLsbD_extractLsb', BitVec.getLsbD_extractLsb', BitVec.getLsbD_or, BitVec.getLsbD_shiftLeft,
    BitVec.getLsbD_setWidth, hplace, habove]
  simp [hwidth, hlow]

/-- Byte `k` of at most 32 bytes shifted in one after the other, the first on top. -/
theorem extractLsb'_foldl_shiftIn (l : List Byte) (h : l.length ≤ 32) {k : Nat} (hk : k < l.length) :
    (l.foldl shiftIn 0).extractLsb' (8 * (l.length - 1 - k)) 8 = l[k] := by
  induction l using List.reverseRecOn with
  | nil => simp at hk
  | append_singleton l b ih =>
    rw [List.length_append, List.length_singleton] at h hk
    rw [List.foldl_append, List.foldl_cons, List.foldl_nil, List.length_append, List.length_singleton]
    by_cases hlast : k < l.length
    · have hplace : l.length + 1 - 1 - k = l.length - 1 - k + 1 := by omega
      rw [hplace, extractLsb'_shiftIn_succ _ _ (by omega), ih (by omega) hlast, List.getElem_append_left hlast]
    · obtain rfl : k = l.length := by omega
      rw [Nat.add_sub_cancel, Nat.sub_self, extractLsb'_shiftIn_zero, List.getElem_concat_length rfl]

theorem digestBits_byte (dg : Vector Byte 32) {k : Nat} (h : k < 32) :
    (digestBits dg).extractLsb' (248 - 8 * k) 8 = dg[k] := by
  have hbyte := extractLsb'_foldl_shiftIn dg.toList (by simp) (k := k) (by simpa using h)
  have hbit : 8 * (dg.toList.length - 1 - k) = 248 - 8 * k := by rw [Vector.length_toList]; omega
  rw [digestBits_eq_foldl, ← hbit, hbyte, Vector.getElem_toList]

/-- A word is its four bytes. -/
theorem word_ext {v w : Word} (h : ∀ j < 4, v.extractLsb' (24 - 8 * j) 8 = w.extractLsb' (24 - 8 * j) 8) : v = w := by
  refine BitVec.eq_of_getLsbD_eq fun i hi => ?_
  have hbit := congrArg (·.getLsbD (i % 8)) (h (3 - i / 8) (by omega))
  have hplace : 24 - 8 * (3 - i / 8) + i % 8 = i := by omega
  simpa [hplace, Nat.mod_lt] using hbit

theorem digestBits_serialize_word (x : Words8) {i : Nat} (hi : i < 8) :
    (digestBits (serialize x)).extractLsb' (224 - 32 * i) 32 = (wordsOf x).getD i 0 := by
  refine word_ext fun j hj => ?_
  have hbit : 224 - 32 * i + (24 - 8 * j) = 248 - 8 * (4 * i + j) := by omega
  rw [extractLsb'_byte_of_word _ _ (by omega), hbit, digestBits_byte _ (by omega), serialize_getElem x hi hj]

theorem digestPort_of_not_finalized {s : State} (h : s.phase ≠ .finalized) : s.digestPort = 0#256 := by
  rw [State.digestPort, State.digestValid, if_neg (by simpa using h)]
  rfl

/-- Settles O48: in FINALIZED the port is the bits of `DG`, read by bytes and by words; elsewhere it is gated. -/
theorem digestPortMapping : Obligations.DigestPortMapping := by
  refine fun s => ⟨fun hp k hk => ?_, fun hp hDG i hi => ?_, digestPort_of_not_finalized⟩
  · rw [digestPort_of_finalized hp, digestBits_byte _ hk]
  · rw [digestPort_of_finalized hp, hDG, digestBits_serialize_word _ hi]

/-! ### The digest is stable (44_digest_output.md R223) -/

/-- In FINALIZED a command other than INIT is refused, which sets `fault` and responds, no more. -/
theorem exec_of_finalized {i : Instr} {s t : State} (hp : s.phase = .finalized) (h : exec i s = .next t) :
    i = .init ∨ ∃ c, t = raise c s := by
  obtain ⟨rfl, -⟩ | ⟨len, -, -, hactive, -⟩ | ⟨-, hactive, -⟩ | ⟨c, ht, -⟩ := exec_cases h
  · exact .inl rfl
  · rw [hp] at hactive; cases hactive
  · rw [hp] at hactive; cases hactive
  · exact .inr ⟨c, ht⟩

theorem eq_of_decode_init {cw : BitVec 16} (h : decode cw = .ok .init) : cw = 0x1000#16 := by
  obtain ⟨hcw, -⟩ := (decode_eq_ok_iff cw .init).mp h
  rw [← hcw]
  decide

/-- Settles O50: an idle step and a refusal write none of the registers the port is read from. -/
theorem digestIsStable : Obligations.DigestIsStable := by
  intro s t hp h
  obtain ⟨rfl, -⟩ | ⟨rest, -, rfl⟩ | ⟨rest, ha, -⟩ | ⟨cw, data, rest, ha, -⟩ |
    ⟨cw, data, rest, -, ha, ⟨i, hd, hexec⟩ | ⟨e, -, rfl⟩⟩ := step_cases h
  · exact .inl ⟨rfl, rfl, rfl, hp⟩
  · exact .inl ⟨rfl, rfl, rfl, hp⟩
  · exact .inr (.inr (.inl ⟨rest, ha⟩))
  · exact .inr (.inr (.inr ⟨cw, data, rest, ha⟩))
  · have hpt : (transfer cw data { s with hostActions := rest }).phase = .finalized := hp
    obtain rfl | ⟨c, rfl⟩ := exec_of_finalized hpt hexec
    · exact .inr (.inl ⟨data, rest, eq_of_decode_init hd ▸ ha⟩)
    · exact .inl ⟨rfl, rfl, rfl, hp⟩
  · exact .inl ⟨rfl, rfl, rfl, hp⟩

end Sys2Proof.Machine

/-! The exceptions family (60_exceptions.md): an illegal word, caller-protocol misuse, and what a refusal leaves. -/

namespace Sys2Proof.Machine

/-! ### Refusals (60_exceptions.md R231, R232, R234) -/

/-- Settles O7: the word raises ILLEGAL_COMMAND, and the transfer before it lowers `cmd_ready` only until the response. -/
theorem illegalWordIsRefused : Obligations.IllegalWordIsRefused := by
  intro s cw data rest hr ha hill
  rw [step_illegal hr ha hill, raise_eq, FaultCause.code, transfer, hr]

/-- A command without an OK response raised one of the two fault causes, and did nothing else. -/
theorem exec_without_ok {i : Instr} {s t : State} (h : exec i s = .next t) (hrsp : t.rsp ≠ some .ok) :
    ∃ c, t = raise c s := by
  obtain ⟨-, rfl⟩ | ⟨len, -, -, -, -, rfl⟩ | ⟨-, -, -, rfl⟩ | ⟨c, ht, -⟩ := exec_cases h
  · exact absurd (respond_rsp _ _) hrsp
  · exact absurd (respond_rsp _ _) hrsp
  · exact absurd (respond_rsp _ _) hrsp
  · exact ⟨c, ht⟩

@[simp] theorem raise_digestValid (cause : FaultCause) (s : State) : (raise cause s).digestValid = s.digestValid := by
  rw [State.digestValid, raise_phase, State.digestValid]

@[simp] theorem raise_digestPort (cause : FaultCause) (s : State) : (raise cause s).digestPort = s.digestPort := by
  rw [State.digestPort, raise_digestValid, raise_DG, State.digestPort]

/-- Settles O31: a raise keeps every register but `fault` and the handshake, so also what the digest port is read from. -/
theorem refusalIsPrecise : Obligations.RefusalIsPrecise := by
  intro s t i h hrsp
  obtain ⟨c, rfl⟩ := exec_without_ok h hrsp
  exact ⟨raise_eq c s, raise_digestPort c s, raise_digestValid c s⟩

/-- Settles O30: UPDATE with a legal count and FINALIZE are refused outside ACTIVE, INIT has no check to fail. -/
theorem misuseIsRefused : Obligations.MisuseIsRefused := by
  refine fun s => ⟨fun hp => ⟨fun len hl => ?_, ?_⟩, fun t ht => ?_⟩
  · exact exec_update_refused s len hp hl
  · exact exec_finalize_refused s hp
  · exact exec_rsp (i := .init) rfl ht

end Sys2Proof.Machine

/-! The reset family (70_reset_and_hazards.md): what the reset event leaves, and that INIT is the only command accepted
then. -/

namespace Sys2Proof.Machine

/-! ### The ports and the invariant in UNINIT (70_reset_and_hazards.md R260) -/

theorem digestValid_of_uninit {s : State} (h : s.phase = .uninit) : s.digestValid = false := by
  rw [State.digestValid, h]; rfl

theorem digestPort_of_uninit {s : State} (h : s.phase = .uninit) : s.digestPort = 0#256 :=
  digestPort_of_not_finalized (by rw [h]; decide)

theorem status_of_uninit {s : State} (h : s.phase = .uninit) (hfault : s.fault = false) : s.status = 0b0000#4 := by
  rw [State.status, digestValid_of_uninit h, h, hfault]; rfl

/-- In UNINIT the invariant asks for readiness alone: its clauses on the context and on `DG` speak of the other phases. -/
theorem inv_of_uninit {s : State} (h : s.phase = .uninit) (hr : s.cmdReady = true) : Inv s := by
  refine ⟨hr, fun hp => ?_, fun hp => ?_⟩
  · rw [h] at hp; cases hp
  · rw [h] at hp; cases hp

/-- In UNINIT every legal command gets a response: INIT enters ACTIVE, the others are refused and UNINIT stays
(70_reset_and_hazards.md R262). -/
theorem exec_of_uninit {i : Instr} {s : State} (hp : s.phase = .uninit) (hw : i.wellFormed = true) :
    ∃ t, exec i s = .next t ∧ t.rsp = some (if i = .init then .ok else .invalidContextState) ∧
      t.phase = (if i = .init then .active else .uninit) := by
  by_cases hi : i = .init
  · subst hi
    exact ⟨_, exec_init_eq s, rfl, rfl⟩
  · rw [if_neg hi, if_neg hi]
    exact ⟨_, exec_refused hi hw (by rw [hp]; decide), rfl, hp⟩

/-! ### The reset event and the reset state -/

/-- Both forms of the reset are the reset event on some state with the rest of the host's list. -/
theorem step_eq_resetEvent {s : State} {rest : List HostAction}
    (h : s.hostActions = .reset :: rest ∨ ∃ cw data, s.hostActions = .abortedCommand cw data :: rest) :
    ∃ u : State, step s = .next (resetEvent u) ∧ u.hostActions = rest := by
  obtain ha | ⟨cw, data, ha⟩ := h
  · exact ⟨_, step_reset ha, rfl⟩
  · exact ⟨_, step_abortedCommand ha, rfl⟩

/-- Settles O9: the event enters UNINIT with `fault` 0, which fixes the status and the digest port. -/
theorem resetEventClears : Obligations.ResetEventClears := by
  intro s rest h
  obtain ⟨u, hstep, hrest⟩ := step_eq_resetEvent h
  exact ⟨_, hstep, rfl, rfl, rfl, rfl, hrest, status_of_uninit rfl rfl, digestValid_of_uninit rfl,
    digestPort_of_uninit rfl⟩

/-- Settles O10: the ports follow from UNINIT and `fault` 0, and so does what a legal command does. -/
theorem afterResetOnlyInitIsAccepted : Obligations.AfterResetOnlyInitIsAccepted :=
  ⟨rfl, rfl, status_of_uninit rfl rfl, digestValid_of_uninit rfl, digestPort_of_uninit rfl, rfl, rfl,
    fun _ hw => exec_of_uninit rfl hw⟩

/-- Settles O51: the reset state is ready and in UNINIT. -/
theorem invAtReset : Obligations.InvAtReset := inv_of_uninit rfl rfl

end Sys2Proof.Machine
